-- ==== Sys2Proof/Word.lean ====
section
/-! DEFINITION. The value types of the CPAES core (spec/00_scope.md R12): bytes, 32-bit register words and the byte strings of
fixed length 4, 8 and 16, with the exclusive-or of two byte strings of equal length. -/

namespace Sys2Proof

/-- A byte (R12), also a field element of GF(2^8) (R120): bit `i` is the coefficient of `x^i`. -/
abbrev Byte := BitVec 8

/-- A 32-bit register word (R12, R36) and a command word (R90). -/
abbrev Word := BitVec 32

/-- The spec's four-byte *word* (R12): one column of the cipher state (R140), one word of a round key (R170) and the four bytes
that one register word of a byte-string register carries (R37). `b0` is the byte with the lowest index. -/
structure Quad where
  b0 : Byte
  b1 : Byte
  b2 : Byte
  b3 : Byte
  deriving DecidableEq, Repr

/-- A *block* (R12): a byte string of length 16. Byte `i` is byte `i mod 4` of quad `i div 4`, so quad `c` is column `c` of the
cipher state (R140) and word `c` of a round key (R170). -/
structure Block where
  q0 : Quad
  q1 : Quad
  q2 : Quad
  q3 : Quad
  deriving DecidableEq, Repr

/-- The eight bytes of `NONCE` (R26), never read as an integer. -/
structure Nonce where
  q0 : Quad
  q1 : Quad
  deriving DecidableEq, Repr

/-- `^` on four-byte strings, byte by byte (R12). -/
def Quad.xor (x y : Quad) : Quad :=
  ⟨x.b0 ^^^ y.b0, x.b1 ^^^ y.b1, x.b2 ^^^ y.b2, x.b3 ^^^ y.b3⟩

/-- `^` on blocks, byte by byte (R12). -/
def Block.xor (x y : Block) : Block :=
  ⟨x.q0.xor y.q0, x.q1.xor y.q1, x.q2.xor y.q2, x.q3.xor y.q3⟩

end Sys2Proof
end

