-- ==== Sys2Proof/Syntax.lean ====
section
/-! DEFINITION. The command set (spec/30_encoding.md R93): one constructor of `Instr` for each of the 23 rows of the opcode
table, its arguments the operand fields of R92. -/

namespace Sys2Proof

/-- The `dir` field of a mode command (R92, R200): the block transform it uses. -/
inductive Dir where
  /-- `dir = 0`, assembler suffix `.F`: `encrypt_block`. -/
  | forward
  /-- `dir = 1`, assembler suffix `.I`: `decrypt_block`. -/
  | inverse
  deriving DecidableEq, Repr

/-- The 23 commands (R93). -/
inductive Instr where
  /-- `GFMUL a, b` (R128). -/
  | gfmul (a b : Byte)
  /-- `GFPOW a, n` (R129). -/
  | gfpow (a n : Byte)
  /-- `GFINV a` (R130). -/
  | gfinv (a : Byte)
  /-- `SBOXB a` (R153). -/
  | sboxb (a : Byte)
  /-- `ISBOXB a` (R154). -/
  | isboxb (a : Byte)
  /-- `SUBB` (R155). -/
  | subb
  /-- `ISUBB` (R156). -/
  | isubb
  /-- `SHROW` (R157). -/
  | shrow
  /-- `ISHROW` (R158). -/
  | ishrow
  /-- `MIXC` (R159). -/
  | mixc
  /-- `IMIXC` (R160). -/
  | imixc
  /-- `ADDRK` (R161). -/
  | addrk
  /-- `KSLOAD` (R177). -/
  | ksload
  /-- `KSNEXT` (R178). -/
  | ksnext
  /-- `KSPREV` (R179). -/
  | ksprev
  /-- `ENCBLK` (R190). -/
  | encblk
  /-- `DECBLK` (R191). -/
  | decblk
  /-- `ECB.dir` (R208). -/
  | ecb (dir : Dir)
  /-- `CBCE.dir` (R209). -/
  | cbce (dir : Dir)
  /-- `CBCD.dir` (R210). -/
  | cbcd (dir : Dir)
  /-- `CTR.dir` (R211). -/
  | ctr (dir : Dir)
  /-- `PAD bs` (R233). -/
  | pad (bs : Byte)
  /-- `UNPAD` (R234). -/
  | unpad
  deriving DecidableEq, Repr

end Sys2Proof
end

