-- ==== Sys2Proof/WellFormed.lean ====
section
/-! DEFINITION. Which terms of `Instr` a command word can name. The operand fields of R92 are whole bytes and one bit, which the
types hold already; the one check left is the block size of `PAD`. -/

namespace Sys2Proof

/-- `PAD` takes a block size 1..255: `bs = 0` is a reserved encoding (R92, R94). Every other term is well formed. -/
def wellFormed : Instr → Bool
  | .pad bs => bs ≠ 0#8
  | .gfmul _ _ | .gfpow _ _ | .gfinv _ | .sboxb _ | .isboxb _ => true
  | .subb | .isubb | .shrow | .ishrow | .mixc | .imixc | .addrk => true
  | .ksload | .ksnext | .ksprev | .encblk | .decblk => true
  | .ecb _ | .cbce _ | .cbcd _ | .ctr _ => true
  | .unpad => true

end Sys2Proof
end

