-- ==== Sys2Proof/Decode.lean ====
section
/-! DEFINITION. The decoder of spec/30_encoding.md R95, total on the 2^32 command words, which names why it rejects a word (R94);
the encoder, written from the formats of R91; and the opcode map of R93 as rows of mask and match bits. -/

namespace Sys2Proof

/-- Why a command word is a reserved encoding (R94). -/
inductive Reserved where
  /-- An opcode value that the map of R93 does not list. -/
  | opcode
  /-- A listed opcode with a 1 in a bit that its format marks 0. -/
  | mustBeZero
  /-- `PAD` with `bs = 0`. -/
  | padSizeZero
  deriving DecidableEq, Repr

/-- `op = w[7:0]` (R90). -/
def opField (w : Word) : Byte := w.extractLsb' 0 8

/-- `a = w[15:8]`, also `bs` (R92). -/
def aField (w : Word) : Byte := w.extractLsb' 8 8

/-- `b = w[23:16]`, also the exponent `n` of `GFPOW` (R92). -/
def bField (w : Word) : Byte := w.extractLsb' 16 8

/-- `dir = w[8]` (R92). -/
def dirField (w : Word) : Dir := if w.getLsbD 8 then .inverse else .forward

/-- Format G2: bits 31..24 must be zero (R91). -/
def decodeG2 (i : Byte → Byte → Instr) (w : Word) : Except Reserved Instr :=
  if w.extractLsb' 24 8 = 0#8 then .ok (i (aField w) (bField w)) else .error .mustBeZero

/-- Format G1: bits 31..16 must be zero (R91). -/
def decodeG1 (i : Byte → Instr) (w : Word) : Except Reserved Instr :=
  if w.extractLsb' 16 16 = 0#16 then .ok (i (aField w)) else .error .mustBeZero

/-- Format Z: bits 31..8 must be zero (R91). -/
def decodeZ (i : Instr) (w : Word) : Except Reserved Instr :=
  if w.extractLsb' 8 24 = 0#24 then .ok i else .error .mustBeZero

/-- Format M: bits 31..9 must be zero (R91). -/
def decodeM (i : Dir → Instr) (w : Word) : Except Reserved Instr :=
  if w.extractLsb' 9 23 = 0#23 then .ok (i (dirField w)) else .error .mustBeZero

/-- Format P: bits 31..16 must be zero, and `bs` must not be (R91, R94). -/
def decodeP (i : Byte → Instr) (w : Word) : Except Reserved Instr :=
  if w.extractLsb' 16 16 = 0#16 then
    if aField w = 0#8 then .error .padSizeZero else .ok (i (aField w))
  else .error .mustBeZero

/-- `decode(w)` of R95: the command a word encodes, or why it is a reserved encoding. It reads only the word (R95, R96). -/
def decode (w : Word) : Except Reserved Instr :=
  match (opField w).toNat with
  | 0x01 => decodeG2 .gfmul w
  | 0x02 => decodeG2 .gfpow w
  | 0x03 => decodeG1 .gfinv w
  | 0x10 => decodeG1 .sboxb w
  | 0x11 => decodeG1 .isboxb w
  | 0x12 => decodeZ .subb w
  | 0x13 => decodeZ .isubb w
  | 0x14 => decodeZ .shrow w
  | 0x15 => decodeZ .ishrow w
  | 0x16 => decodeZ .mixc w
  | 0x17 => decodeZ .imixc w
  | 0x18 => decodeZ .addrk w
  | 0x20 => decodeZ .ksload w
  | 0x21 => decodeZ .ksnext w
  | 0x22 => decodeZ .ksprev w
  | 0x30 => decodeZ .encblk w
  | 0x31 => decodeZ .decblk w
  | 0x40 => decodeM .ecb w
  | 0x41 => decodeM .cbce w
  | 0x42 => decodeM .cbcd w
  | 0x43 => decodeM .ctr w
  | 0x50 => decodeP .pad w
  | 0x51 => decodeZ .unpad w
  | _ => .error .opcode

/-- The opcode `op` of each command (R93). -/
def opcodeOf : Instr → Byte
  | .gfmul _ _ => 0x01#8
  | .gfpow _ _ => 0x02#8
  | .gfinv _ => 0x03#8
  | .sboxb _ => 0x10#8
  | .isboxb _ => 0x11#8
  | .subb => 0x12#8
  | .isubb => 0x13#8
  | .shrow => 0x14#8
  | .ishrow => 0x15#8
  | .mixc => 0x16#8
  | .imixc => 0x17#8
  | .addrk => 0x18#8
  | .ksload => 0x20#8
  | .ksnext => 0x21#8
  | .ksprev => 0x22#8
  | .encblk => 0x30#8
  | .decblk => 0x31#8
  | .ecb _ => 0x40#8
  | .cbce _ => 0x41#8
  | .cbcd _ => 0x42#8
  | .ctr _ => 0x43#8
  | .pad _ => 0x50#8
  | .unpad => 0x51#8

/-- The value of the `dir` bit as the low bit of bits 15..8 of a format M word (R91). -/
def dirByte : Dir → Byte
  | .forward => 0x00#8
  | .inverse => 0x01#8

/-- Bits 23..16 of a command's word: `b` or `n` in format G2, zero in the others (R91). -/
def operandB : Instr → Byte
  | .gfmul _ b => b
  | .gfpow _ n => n
  | .gfinv _ | .sboxb _ | .isboxb _ => 0#8
  | .subb | .isubb | .shrow | .ishrow | .mixc | .imixc | .addrk => 0#8
  | .ksload | .ksnext | .ksprev | .encblk | .decblk => 0#8
  | .ecb _ | .cbce _ | .cbcd _ | .ctr _ => 0#8
  | .pad _ | .unpad => 0#8

/-- Bits 15..8 of a command's word: `a`, `bs`, or the `dir` bit with seven zeros above it (R91). -/
def operandA : Instr → Byte
  | .gfmul a _ => a
  | .gfpow a _ => a
  | .gfinv a | .sboxb a | .isboxb a => a
  | .subb | .isubb | .shrow | .ishrow | .mixc | .imixc | .addrk => 0#8
  | .ksload | .ksnext | .ksprev | .encblk | .decblk => 0#8
  | .ecb d | .cbce d | .cbcd d | .ctr d => dirByte d
  | .pad bs => bs
  | .unpad => 0#8

/-- The command word of an instruction, bits 31..24 first (R91, R93). -/
def encode (i : Instr) : Word :=
  0#8 ++ operandB i ++ operandA i ++ opcodeOf i

/-- A row of the opcode map: opcode, mask and match bits (R93). -/
structure OpRow where
  op : Byte
  mask : Word
  bits : Word
  deriving DecidableEq, Repr

/-- The opcode map of R93, first half: field arithmetic and round transforms. -/
def opcodeRowsLow : List OpRow :=
  [⟨0x01#8, 0xFF0000FF#32, 0x00000001#32⟩,
   ⟨0x02#8, 0xFF0000FF#32, 0x00000002#32⟩,
   ⟨0x03#8, 0xFFFF00FF#32, 0x00000003#32⟩,
   ⟨0x10#8, 0xFFFF00FF#32, 0x00000010#32⟩,
   ⟨0x11#8, 0xFFFF00FF#32, 0x00000011#32⟩,
   ⟨0x12#8, 0xFFFFFFFF#32, 0x00000012#32⟩,
   ⟨0x13#8, 0xFFFFFFFF#32, 0x00000013#32⟩,
   ⟨0x14#8, 0xFFFFFFFF#32, 0x00000014#32⟩,
   ⟨0x15#8, 0xFFFFFFFF#32, 0x00000015#32⟩,
   ⟨0x16#8, 0xFFFFFFFF#32, 0x00000016#32⟩,
   ⟨0x17#8, 0xFFFFFFFF#32, 0x00000017#32⟩,
   ⟨0x18#8, 0xFFFFFFFF#32, 0x00000018#32⟩]

/-- The opcode map of R93, second half: key schedule, block cipher, modes and padding. -/
def opcodeRowsHigh : List OpRow :=
  [⟨0x20#8, 0xFFFFFFFF#32, 0x00000020#32⟩,
   ⟨0x21#8, 0xFFFFFFFF#32, 0x00000021#32⟩,
   ⟨0x22#8, 0xFFFFFFFF#32, 0x00000022#32⟩,
   ⟨0x30#8, 0xFFFFFFFF#32, 0x00000030#32⟩,
   ⟨0x31#8, 0xFFFFFFFF#32, 0x00000031#32⟩,
   ⟨0x40#8, 0xFFFFFEFF#32, 0x00000040#32⟩,
   ⟨0x41#8, 0xFFFFFEFF#32, 0x00000041#32⟩,
   ⟨0x42#8, 0xFFFFFEFF#32, 0x00000042#32⟩,
   ⟨0x43#8, 0xFFFFFEFF#32, 0x00000043#32⟩,
   ⟨0x50#8, 0xFFFF00FF#32, 0x00000050#32⟩,
   ⟨0x51#8, 0xFFFFFFFF#32, 0x00000051#32⟩]

/-- The opcode map of R93: 23 rows. -/
def opcodeRows : List OpRow := opcodeRowsLow ++ opcodeRowsHigh

/-- A word encodes the command of a row exactly when `w & mask == match`, and for `PAD` also `bs != 0` (R93). -/
def rowMatches (r : OpRow) (w : Word) : Bool :=
  w &&& r.mask == r.bits && (r.op != 0x50#8 || aField w != 0#8)

/-- What the decoder reads from the instruction whose bits are `w` (opcode_table.json's numbering: a command is one 32-bit word,
so bit `i` of the table is bit `i` of `CMD`). -/
def decodeTableWord (nbits w : Nat) : Option Instr :=
  match decode (BitVec.ofNat 32 (w % 2 ^ nbits)) with
  | .ok i => some i
  | .error _ => none

end Sys2Proof
end

