-- ==== Sys2Proof/Machine/Bytes.lean ====
section
/-! DEFINITION. Byte order helpers: the bytes of a block in buffer order (spec/20_memory.md R62), the quads of a byte-string register,
and the little-endian lanes of a register word (spec/10_state.md R37). -/

namespace Sys2Proof.Machine

/-- The four bytes of a quad, lowest index first. -/
def quadBytes (q : Quad) : List Byte := [q.b0, q.b1, q.b2, q.b3]

/-- The sixteen bytes of a block in order of increasing index (R62). -/
def blockBytes (x : Block) : List Byte :=
  quadBytes x.q0 ++ quadBytes x.q1 ++ quadBytes x.q2 ++ quadBytes x.q3

/-- Byte `i` of a quad. -/
def quadByte (q : Quad) : Fin 4 → Byte
  | 0 => q.b0
  | 1 => q.b1
  | 2 => q.b2
  | 3 => q.b3

/-- Quad `j` of a block: bytes `4j` to `4j + 3`. -/
def blockQuad (x : Block) : Fin 4 → Quad
  | 0 => x.q0
  | 1 => x.q1
  | 2 => x.q2
  | 3 => x.q3

/-- Byte `i` of a block: row `i mod 4`, column `i div 4` (R140). -/
def blockByte (x : Block) (i : Fin 16) : Byte :=
  quadByte (blockQuad x ⟨i.val / 4, by omega⟩) ⟨i.val % 4, by omega⟩

/-- A block with quad `j` replaced. -/
def setBlockQuad (x : Block) (j : Fin 4) (q : Quad) : Block :=
  match j with
  | 0 => { x with q0 := q }
  | 1 => { x with q1 := q }
  | 2 => { x with q2 := q }
  | 3 => { x with q3 := q }

/-- Quad `j` of the nonce: bytes `4j` to `4j + 3`. -/
def nonceQuad (x : Nonce) : Fin 2 → Quad
  | 0 => x.q0
  | 1 => x.q1

/-- Byte `i` of the nonce. -/
def nonceByte (x : Nonce) (i : Fin 8) : Byte :=
  quadByte (nonceQuad x ⟨i.val / 4, by omega⟩) ⟨i.val % 4, by omega⟩

/-- The nonce with quad `j` replaced. -/
def setNonceQuad (x : Nonce) (j : Fin 2) (q : Quad) : Nonce :=
  match j with
  | 0 => { x with q0 := q }
  | 1 => { x with q1 := q }

/-- The block whose byte `i` is `f i`. -/
def blockOfFn (f : Fin 16 → Byte) : Block :=
  ⟨⟨f 0, f 1, f 2, f 3⟩, ⟨f 4, f 5, f 6, f 7⟩, ⟨f 8, f 9, f 10, f 11⟩, ⟨f 12, f 13, f 14, f 15⟩⟩

/-- The register word that carries a quad: byte `4j` in bits 7..0 up to byte `4j + 3` in bits 31..24 (R37). -/
def laneWord (q : Quad) : Word := q.b3 ++ q.b2 ++ q.b1 ++ q.b0

/-- The quad that a register word carries (R37). -/
def laneQuad (w : Word) : Quad :=
  ⟨w.extractLsb' 0 8, w.extractLsb' 8 8, w.extractLsb' 16 8, w.extractLsb' 24 8⟩

/-! ### Byte strings as hexadecimal numbers: the leftmost pair of digits is byte 0 (R12) -/

/-- The quad written as eight hexadecimal digits. -/
def quadOfHex (n : Nat) : Quad :=
  ⟨BitVec.ofNat 8 (n >>> 24), BitVec.ofNat 8 (n >>> 16), BitVec.ofNat 8 (n >>> 8), BitVec.ofNat 8 n⟩

/-- The block written as 32 hexadecimal digits. -/
def blockOfHex (n : Nat) : Block :=
  ⟨quadOfHex (n >>> 96), quadOfHex (n >>> 64), quadOfHex (n >>> 32), quadOfHex n⟩

/-- The nonce written as 16 hexadecimal digits. -/
def nonceOfHex (n : Nat) : Nonce := ⟨quadOfHex (n >>> 32), quadOfHex n⟩

/-- The string of `count` bytes written as `2 * count` hexadecimal digits. -/
def bytesOfHex : (count : Nat) → (n : Nat) → List Byte
  | 0, _ => []
  | count + 1, n => BitVec.ofNat 8 (n >>> (8 * count)) :: bytesOfHex count n

end Sys2Proof.Machine
end

