-- ==== Sys2Proof/Config.lean ====
section
/-! DEFINITION. The parameters of the CPAES core that are not the algorithm's own constants (spec/00_scope.md R8): the bound on the
open parameter `MEM_BYTES`, the size the model names at `State.reset`, and the byte an unlisted address of `MEM` reads as. The
constants of the cipher stand in the files of Machine/ that use them. -/

namespace Sys2Proof.Config

/-- The number of values of `MEM_BYTES - 1`: R8 and R60 leave `MEM_BYTES` open with `1 <= MEM_BYTES < 2^32`. -/
abbrev memSizes : Nat := 4294967295

/-- DESIGN CHOICE (log entry 1), unsafe: the value of `MEM_BYTES - 1` that `State.reset` names, so 256 bytes of buffer space.
The spec leaves the size open (D13), and no statement of the model rests on this value. -/
def resetMemLast : Fin memSizes := 255

/-- DESIGN CHOICE (log entry 3), unsafe: what an address that memory does not list reads as. R39 leaves every byte of `MEM`
unspecified at reset. -/
def unlistedByte : Byte := 0#8

end Sys2Proof.Config
end

