-- ==== Sys2Proof/Machine/State.lean ====
section
/-! DEFINITION. The state of the CPAES core (spec/10_state.md R20), the host actions that drive it (spec/00_scope.md R10), the reasons
a host action is refused (spec/60_exceptions.md R261) and the state after reset (R39). -/

namespace Sys2Proof.Machine

/-- The outcome codes of `STATUS.CODE` (R30, R251). The codes 6..15 never occur, so the type has no value for them
(DEDUCED, log entry 10, safe). -/
inductive StatusCode where
  | ok
  | errLen
  | errPad
  | errCmd
  | errRange
  | errRnd
  deriving DecidableEq, Repr

/-- The buffer space `MEM` (R32, R60) as a list of (address, byte) pairs. In canonical form (`Memory.wf`) addresses rise strictly
and no pair holds the byte that an unlisted address reads as. -/
abbrev Memory := List Host.Cell

/-- The registers of the register port (R36), each word of a byte-string register apart. -/
inductive Reg where
  | cmd
  | status
  | src
  | dst
  | len
  | rlen
  | fr
  | rnd
  | k (j : Fin 4)
  | rk (j : Fin 4)
  | s (j : Fin 4)
  | cv (j : Fin 4)
  | nonce (j : Fin 2)
  deriving DecidableEq, Repr

/-- What a reset leaves in the state that R39 calls unspecified: the free value that a `RESET` action brings with it. Nothing
constrains it (log entry 4). `mem` lists the bytes of `MEM` that differ from `Config.unlistedByte`. -/
structure ResetImage where
  k : Block
  rk : Block
  s : Block
  cv : Block
  nonce : Nonce
  mem : List Host.Cell
  deriving DecidableEq, Repr

/-- One host action (R10, R286). `bits` is the width of a register access: R36 gives a meaning to 32 alone, and R261 names the
others as malformed (DEDUCED, log entry 7, safe). -/
inductive HostAction where
  /-- A read of `bits` bits at byte offset `off` of the register port. -/
  | regRead (off bits : Nat)
  /-- A write of the value `v` with `bits` bits at byte offset `off` of the register port. -/
  | regWrite (off bits : Nat) (v : Word)
  /-- `BufRead(a)` (R76). -/
  | bufRead (a : Nat)
  /-- `BufWrite(a, b)` (R76). -/
  | bufWrite (a : Nat) (b : Byte)
  /-- `RESET` (R280). The image is not the host's choice but the name of the unspecified values it finds afterwards. -/
  | reset (image : ResetImage)
  deriving DecidableEq, Repr

/-- A value that a host read returned (R286). -/
inductive Observation where
  /-- The word that a register read returned. -/
  | register (v : Word)
  /-- The byte that a buffer read returned. -/
  | buffer (b : Byte)
  deriving DecidableEq, Repr

/-- The core has no fault: no step faults (R11), and no command or host action raises an exception, traps or halts (R250). Nobody
raises one, so the type is empty. -/
inductive Fault where
  deriving DecidableEq, Repr

/-- Why a step is refused. Each but the first is a malformed host action of R261, raised by the port in Machine/HostPort.lean; each is
safe, because a refused action has no next state about which anything could be proved. -/
inductive Refusal where
  /-- The command has no meaning in this model yet. Raised by no arm of `exec`. Safe. -/
  | notModelled (mnemonic : String)
  /-- A register access at an offset that R36 does not list. Raised by a register read or write. Safe. -/
  | unlistedOffset (off : Nat)
  /-- A register access narrower or wider than 32 bits. Raised by a register read or write. Safe. -/
  | accessWidth (bits : Nat)
  /-- A buffer access at an address that is not below `MEM_BYTES`. Raised by a buffer read or write. Safe. -/
  | bufferAddress (a : Nat)
  deriving DecidableEq, Repr

/-- The whole state. The first fourteen fields are the spec's (R20); the last three are the model's own. -/
structure State where
  /-- `K`, the key register (R21). -/
  k : Block
  /-- `RK`, the round-key register (R22). -/
  rk : Block
  /-- `RND`, the round number of the round key in `RK` (R23). -/
  rnd : BitVec 4
  /-- `S`, the block register (R24). -/
  s : Block
  /-- `CV`, the chaining value of CBC (R25). -/
  cv : Block
  /-- `NONCE`, the nonce of CTR (R26). -/
  nonce : Nonce
  /-- `SRC`, the address of the input buffer (R27). -/
  src : Word
  /-- `DST`, the address of the output buffer (R27). -/
  dst : Word
  /-- `LEN`, the length of the input buffer in bytes (R27). -/
  len : Word
  /-- `RLEN`, the length of the last buffer command's result (R28). -/
  rlen : Word
  /-- `FR`, the result byte of the last field or single-byte S-box command (R29). -/
  fr : Byte
  /-- `STATUS.CODE` (R30). -/
  status : StatusCode
  /-- `CMD`, the last command word written (R31). -/
  cmd : Word
  /-- `MEM`, the buffer space (R32). -/
  mem : Memory
  /-- The model's own: `MEM_BYTES - 1`, the open parameter of R60, which no step changes (log entry 1). -/
  memLast : Fin Config.memSizes
  /-- The model's own: the host actions still to come, the input of a run (R40, R286; log entry 2). -/
  script : List HostAction
  /-- The model's own: the observations of the run so far, oldest first (R286; log entry 2). -/
  observed : List Observation
  deriving DecidableEq, Repr

/-- Sixteen zero bytes. -/
def zeroBlock : Block :=
  ⟨⟨0#8, 0#8, 0#8, 0#8⟩, ⟨0#8, 0#8, 0#8, 0#8⟩, ⟨0#8, 0#8, 0#8, 0#8⟩, ⟨0#8, 0#8, 0#8, 0#8⟩⟩

/-- Eight zero bytes. -/
def zeroNonce : Nonce :=
  ⟨⟨0#8, 0#8, 0#8, 0#8⟩, ⟨0#8, 0#8, 0#8, 0#8⟩⟩

/-- The state after reset (R39, R281): the control registers are zero as the spec says. DESIGN CHOICE (log entry 3), unsafe: the
spec leaves `K`, `RK`, `S`, `CV`, `NONCE` and `MEM` unspecified, and the model names zero for each. -/
def State.reset : State where
  k := zeroBlock
  rk := zeroBlock
  rnd := 0#4
  s := zeroBlock
  cv := zeroBlock
  nonce := zeroNonce
  src := 0#32
  dst := 0#32
  len := 0#32
  rlen := 0#32
  fr := 0#8
  status := .ok
  cmd := 0#32
  mem := []
  memLast := Config.resetMemLast
  script := []
  observed := []

/-- What executing a command or a host action answers. -/
abbrev Result := Host.Outcome State Fault Refusal

end Sys2Proof.Machine
end

