-- ==== Sys2Proof/Machine/Flags.lean ====
section
/-! DEFINITION. The one status field of the core (spec/10_state.md R30): the numbers of the outcome codes and which failures clear
`RLEN` (spec/60_exceptions.md R251, R254). There are no other flags (R30). -/

namespace Sys2Proof.Machine

/-- The number of an outcome code (R30, R251). -/
def statusNumber : StatusCode → BitVec 4
  | .ok => 0#4
  | .errLen => 1#4
  | .errPad => 2#4
  | .errCmd => 3#4
  | .errRange => 4#4
  | .errRnd => 5#4

/-- The word that a read of `STATUS` returns: `CODE` in bits 3..0, bits 31..4 zero (R30). -/
def statusWord (c : StatusCode) : Word := (statusNumber c).setWidth 32

/-- The failures of a decoded buffer command, which set `RLEN` to 0 (R254). -/
def clearsRlen : StatusCode → Bool
  | .errLen | .errPad | .errRange => true
  | .ok | .errCmd | .errRnd => false

end Sys2Proof.Machine
end

