-- ==== Sys2Proof/Machine/Ops.lean ====
section
/-! DEFINITION. The named operations over memory and registers that the commands and the host port share: the buffer space
(spec/20_memory.md R61), the register port (spec/10_state.md R36 to R38), the end of a command (spec/60_exceptions.md R251, R254) and
reset (R39). -/

namespace Sys2Proof.Machine

/-! ### The buffer space -/

/-- `MEM_BYTES` (R60). -/
def State.memBytes (m : State) : Nat := m.memLast.val + 1

/-- The byte at address `a` (R61). -/
def Memory.read (cells : Memory) (a : Nat) : Byte :=
  match cells with
  | [] => Config.unlistedByte
  | (b, v) :: rest => if b = a then v else Memory.read rest a

/-- The cells of all addresses but `a`. -/
def Memory.erase (cells : Memory) (a : Nat) : Memory :=
  match cells with
  | [] => []
  | (b, v) :: rest => if b = a then Memory.erase rest a else (b, v) :: Memory.erase rest a

/-- A cell put before the first cell with a higher address. -/
def Memory.insert (cells : Memory) (a : Nat) (v : Byte) : Memory :=
  match cells with
  | [] => [(a, v)]
  | (b, w) :: rest => if a < b then (a, v) :: (b, w) :: rest else (b, w) :: Memory.insert rest a v

/-- `MEM[a] <- v` (R61): writing the byte that an unlisted address reads as removes the cell, so that equal memories are equal
lists. -/
def Memory.write (cells : Memory) (a : Nat) (v : Byte) : Memory :=
  if v = Config.unlistedByte then Memory.erase cells a
  else Memory.insert (Memory.erase cells a) a v

/-- `MemRead(addr, n)` (R61). -/
def Memory.readBytes (cells : Memory) (addr : Nat) : Nat → List Byte
  | 0 => []
  | n + 1 => Memory.read cells addr :: Memory.readBytes cells (addr + 1) n

/-- `MemWrite(addr, n, v)` for a byte string `v` of length `n` (R61). -/
def Memory.writeBytes (cells : Memory) (addr : Nat) : List Byte → Memory
  | [] => cells
  | v :: vs => Memory.writeBytes (Memory.write cells addr v) (addr + 1) vs

/-- The block at address `a`: byte `i` of the block at `a + i` (R62, R74). -/
def Memory.readBlock (cells : Memory) (a : Nat) : Block :=
  blockOfFn fun i => Memory.read cells (a + i.val)

/-- Every address listed in `cells` is above `a`. -/
def Memory.above (a : Nat) (cells : Memory) : Bool := cells.all fun c => a < c.1

/-- The canonical form of memory: addresses rise strictly, and no cell holds the byte that an unlisted address reads as. -/
def Memory.wf : Memory → Bool
  | [] => true
  | (a, v) :: rest => v ≠ Config.unlistedByte && Memory.above a rest && Memory.wf rest

/-- Every listed address lies in the buffer space of `limit` bytes (R60). -/
def Memory.within (limit : Nat) (cells : Memory) : Bool := cells.all fun c => c.1 < limit

/-- The memory that holds the listed bytes at the addresses below `limit`, the last one listed where an address stands twice. -/
def Memory.load (limit : Nat) (cells : List Host.Cell) : Memory :=
  cells.foldl (fun mem c => if c.1 < limit then Memory.write mem c.1 c.2 else mem) []

/-! ### The register port -/

/-- The register at a byte offset of the register port (R36): none for an offset that is not listed there. -/
def regAt (off : Nat) : Option Reg :=
  match off with
  | 0x00 => some .cmd
  | 0x04 => some .status
  | 0x08 => some .src
  | 0x0C => some .dst
  | 0x10 => some .len
  | 0x14 => some .rlen
  | 0x18 => some .fr
  | 0x1C => some .rnd
  | 0x20 => some (.k 0)
  | 0x24 => some (.k 1)
  | 0x28 => some (.k 2)
  | 0x2C => some (.k 3)
  | 0x30 => some (.rk 0)
  | 0x34 => some (.rk 1)
  | 0x38 => some (.rk 2)
  | 0x3C => some (.rk 3)
  | 0x40 => some (.s 0)
  | 0x44 => some (.s 1)
  | 0x48 => some (.s 2)
  | 0x4C => some (.s 3)
  | 0x50 => some (.cv 0)
  | 0x54 => some (.cv 1)
  | 0x58 => some (.cv 2)
  | 0x5C => some (.cv 3)
  | 0x60 => some (.nonce 0)
  | 0x64 => some (.nonce 1)
  | _ => none

/-- The byte offset of a register, which the host scripts of R97 call by its name (R36). -/
def regOffset : Reg → Nat
  | .cmd => 0x00
  | .status => 0x04
  | .src => 0x08
  | .dst => 0x0C
  | .len => 0x10
  | .rlen => 0x14
  | .fr => 0x18
  | .rnd => 0x1C
  | .k j => 0x20 + 4 * j.val
  | .rk j => 0x30 + 4 * j.val
  | .s j => 0x40 + 4 * j.val
  | .cv j => 0x50 + 4 * j.val
  | .nonce j => 0x60 + 4 * j.val

/-- The word that a read of a register returns (R30, R31, R36, R37, R38). It changes nothing (R38). -/
def readReg (r : Reg) (m : State) : Word :=
  match r with
  | .cmd => m.cmd
  | .status => statusWord m.status
  | .src => m.src
  | .dst => m.dst
  | .len => m.len
  | .rlen => m.rlen
  | .fr => m.fr.setWidth 32
  | .rnd => m.rnd.setWidth 32
  | .k j => laneWord (blockQuad m.k j)
  | .rk j => laneWord (blockQuad m.rk j)
  | .s j => laneWord (blockQuad m.s j)
  | .cv j => laneWord (blockQuad m.cv j)
  | .nonce j => laneWord (nonceQuad m.nonce j)

/-- What a write of a register stores (R36 to R38): the whole word, four bytes of a byte-string register, bits 3..0 in `RND`,
nothing in the read-only `STATUS`, `RLEN` and `FR`. Executing the word written to `CMD` is the port's part (R31). -/
def writeReg (r : Reg) (v : Word) (m : State) : State :=
  match r with
  | .cmd => { m with cmd := v }
  | .status => m
  | .src => { m with src := v }
  | .dst => { m with dst := v }
  | .len => { m with len := v }
  | .rlen => m
  | .fr => m
  | .rnd => { m with rnd := v.extractLsb' 0 4 }
  | .k j => { m with k := setBlockQuad m.k j (laneQuad v) }
  | .rk j => { m with rk := setBlockQuad m.rk j (laneQuad v) }
  | .s j => { m with s := setBlockQuad m.s j (laneQuad v) }
  | .cv j => { m with cv := setBlockQuad m.cv j (laneQuad v) }
  | .nonce j => { m with nonce := setNonceQuad m.nonce j (laneQuad v) }

/-- The run's observations with one more at the end (R286). -/
def observe (o : Observation) (m : State) : State :=
  { m with observed := m.observed ++ [o] }

/-! ### The end of a command -/

/-- `STATUS.CODE <- OK`, which ends every successful command (R251). -/
def complete (m : State) : State := { m with status := .ok }

/-- `fail CODE`, the core's replacement for taking an exception (R13, R250, R254): it writes `STATUS.CODE`, clears `RLEN` where a decoded
buffer command fails, and changes nothing else. There is no return from it (R255): the next command runs as any other. -/
def fail (c : StatusCode) (m : State) : State :=
  { m with status := c, rlen := if clearsRlen c then 0#32 else m.rlen }

/-- `FR <- v; STATUS.CODE <- OK`. -/
def finishFr (v : Byte) (m : State) : State := complete { m with fr := v }

/-- `S <- x; STATUS.CODE <- OK`. -/
def finishS (x : Block) (m : State) : State := complete { m with s := x }

/-- `RK <- x; RND <- r; STATUS.CODE <- OK`. -/
def finishRound (x : Block) (r : BitVec 4) (m : State) : State := complete { m with rk := x, rnd := r }

/-- `MemWrite(DST, n, out); RLEN <- n; STATUS.CODE <- OK` for the `n` bytes `out` (R201, R233). The length fits the register, for it is below
`MEM_BYTES` (DEDUCED, log entry 11, safe). -/
def finishBuffer (out : List Byte) (m : State) : State :=
  complete { m with mem := Memory.writeBytes m.mem m.dst.toNat out, rlen := BitVec.ofNat 32 out.length }

/-- `RLEN <- n; STATUS.CODE <- OK` (R234). -/
def finishLength (n : Nat) (m : State) : State :=
  complete { m with rlen := BitVec.ofNat 32 n }

/-! ### Reset -/

/-- What a `RESET` action leaves (R39, R280, R281): the control registers are zero, and the rest of the core's state holds the unspecified
values `image`. The size of the buffer space, the actions still to come and the observations of the run are no state that a
reset reaches (R40, R286). -/
def applyReset (image : ResetImage) (m : State) : State where
  k := image.k
  rk := image.rk
  rnd := 0#4
  s := image.s
  cv := image.cv
  nonce := image.nonce
  src := 0#32
  dst := 0#32
  len := 0#32
  rlen := 0#32
  fr := 0#8
  status := .ok
  cmd := 0#32
  mem := Memory.load m.memBytes image.mem
  memLast := m.memLast
  script := m.script
  observed := m.observed

end Sys2Proof.Machine
end

