-- ==== Sys2Proof/Machine/Field.lean ====
section
/-! DEFINITION. Field arithmetic in GF(2^8) (spec/40_field_arithmetic.md): the pure functions of R121 to R125 and the commands `GFMUL`,
`GFPOW` and `GFINV`. -/

namespace Sys2Proof.Machine

/-! ### The functions -/

/-- Addition and subtraction in the field (R121). -/
def gfAdd (a b : Byte) : Byte := a ^^^ b

/-- `gf_xtime`: doubling with conditional reduction by 0x1B (R122). The shift drops bit 8. -/
def gfXtime (a : Byte) : Byte :=
  if a.getLsbD 7 then (a <<< 1) ^^^ 0x1B#8 else a <<< 1

/-- The loop of `gf_mul` from bit `i` on, with `n` bits of `b` left (R123). -/
def gfMulLoop (b : Byte) : (n i : Nat) → (p a : Byte) → Byte
  | 0, _, p, _ => p
  | n + 1, i, p, a => gfMulLoop b n (i + 1) (if b.getLsbD i then p ^^^ a else p) (gfXtime a)

/-- `gf_mul`: multiplication modulo the reduction polynomial (R123). -/
def gfMul (a b : Byte) : Byte := gfMulLoop b 8 0 0#8 a

/-- The loop of `gf_pow`, one turn for each binary digit of the exponent (R124). -/
def gfPowLoop : (digits : Nat) → (r base : Byte) → (n : Nat) → Byte
  | 0, r, _, _ => r
  | d + 1, r, base, n =>
    gfPowLoop d (if n % 2 = 1 then gfMul r base else r) (gfMul base base) (n / 2)

/-- `gf_pow` by repeated squaring, with `gf_pow(a, 0) = 1` for every `a` (R124). -/
def gfPow (a : Byte) (n : Nat) : Byte := gfPowLoop (n.log2 + 1) 0x01#8 a n

/-- `gf_inv(a) = gf_pow(a, 254)`, so that `gf_inv(0) = 0` (R125). -/
def gfInv (a : Byte) : Byte := gfPow a 254

/-! ### The commands -/

/-- `GFMUL a, b`: `FR <- gf_mul(a, b)` (R128). -/
def execGfmul (a b : Byte) (m : State) : Result := .next (finishFr (gfMul a b) m)

/-- `GFPOW a, n`: `FR <- gf_pow(a, n)` (R129). -/
def execGfpow (a n : Byte) (m : State) : Result := .next (finishFr (gfPow a n.toNat) m)

/-- `GFINV a`: `FR <- gf_inv(a)`, no error for `a = 0` (R130). -/
def execGfinv (a : Byte) (m : State) : Result := .next (finishFr (gfInv a) m)

end Sys2Proof.Machine
end

