-- ==== Sys2Proof/Machine/Rounds.lean ====
section
/-! DEFINITION. The round transforms (spec/41_round_transforms.md): S-box and inverse S-box, row shift, column mix, round-key exclusive-or,
and the commands `SBOXB`, `ISBOXB`, `SUBB`, `ISUBB`, `SHROW`, `ISHROW`, `MIXC`, `IMIXC` and `ADDRK`. -/

namespace Sys2Proof.Machine

/-! ### The S-box -/

/-- `rotl8`: a byte rotated left (R141). -/
def rotl8 (b : Byte) (n : Nat) : Byte := (b <<< n) ||| (b >>> (8 - n))

/-- `affine` (R141). -/
def affine (b : Byte) : Byte :=
  b ^^^ rotl8 b 1 ^^^ rotl8 b 2 ^^^ rotl8 b 3 ^^^ rotl8 b 4 ^^^ 0x63#8

/-- `inv_affine` (R142). -/
def invAffine (b : Byte) : Byte := rotl8 b 1 ^^^ rotl8 b 3 ^^^ rotl8 b 6 ^^^ 0x05#8

/-- `sbox(b) = affine(gf_inv(b))` (R143). -/
def sbox (b : Byte) : Byte := affine (gfInv b)

/-- `inv_sbox(b) = gf_inv(inv_affine(b))` (R144). -/
def invSbox (b : Byte) : Byte := gfInv (invAffine b)

/-- A byte function on each byte of a quad. -/
def quadMap (f : Byte → Byte) (q : Quad) : Quad := ⟨f q.b0, f q.b1, f q.b2, f q.b3⟩

/-- A quad function on each column of a block. -/
def columnMap (f : Quad → Quad) (x : Block) : Block := ⟨f x.q0, f x.q1, f x.q2, f x.q3⟩

/-- `sub_bytes` (R145). -/
def subBytes (x : Block) : Block := columnMap (quadMap sbox) x

/-- `inv_sub_bytes` (R146). -/
def invSubBytes (x : Block) : Block := columnMap (quadMap invSbox) x

/-! ### The row shift -/

/-- `shift_rows`: row `r` rotated left by `r` (R147). -/
def shiftRows (x : Block) : Block :=
  ⟨⟨x.q0.b0, x.q1.b1, x.q2.b2, x.q3.b3⟩,
   ⟨x.q1.b0, x.q2.b1, x.q3.b2, x.q0.b3⟩,
   ⟨x.q2.b0, x.q3.b1, x.q0.b2, x.q1.b3⟩,
   ⟨x.q3.b0, x.q0.b1, x.q1.b2, x.q2.b3⟩⟩

/-- `inv_shift_rows`: row `r` rotated right by `r` (R148). -/
def invShiftRows (x : Block) : Block :=
  ⟨⟨x.q0.b0, x.q3.b1, x.q2.b2, x.q1.b3⟩,
   ⟨x.q1.b0, x.q0.b1, x.q3.b2, x.q2.b3⟩,
   ⟨x.q2.b0, x.q1.b1, x.q0.b2, x.q3.b3⟩,
   ⟨x.q3.b0, x.q2.b1, x.q1.b2, x.q0.b3⟩⟩

/-! ### The column mix -/

/-- One column of `mix_columns` (R149). -/
def mixColumn (q : Quad) : Quad :=
  ⟨gfMul 0x02#8 q.b0 ^^^ gfMul 0x03#8 q.b1 ^^^ q.b2 ^^^ q.b3,
   q.b0 ^^^ gfMul 0x02#8 q.b1 ^^^ gfMul 0x03#8 q.b2 ^^^ q.b3,
   q.b0 ^^^ q.b1 ^^^ gfMul 0x02#8 q.b2 ^^^ gfMul 0x03#8 q.b3,
   gfMul 0x03#8 q.b0 ^^^ q.b1 ^^^ q.b2 ^^^ gfMul 0x02#8 q.b3⟩

/-- One column of `inv_mix_columns` (R150). -/
def invMixColumn (q : Quad) : Quad :=
  ⟨gfMul 0x0E#8 q.b0 ^^^ gfMul 0x0B#8 q.b1 ^^^ gfMul 0x0D#8 q.b2 ^^^ gfMul 0x09#8 q.b3,
   gfMul 0x09#8 q.b0 ^^^ gfMul 0x0E#8 q.b1 ^^^ gfMul 0x0B#8 q.b2 ^^^ gfMul 0x0D#8 q.b3,
   gfMul 0x0D#8 q.b0 ^^^ gfMul 0x09#8 q.b1 ^^^ gfMul 0x0E#8 q.b2 ^^^ gfMul 0x0B#8 q.b3,
   gfMul 0x0B#8 q.b0 ^^^ gfMul 0x0D#8 q.b1 ^^^ gfMul 0x09#8 q.b2 ^^^ gfMul 0x0E#8 q.b3⟩

/-- `mix_columns` (R149). -/
def mixColumns (x : Block) : Block := columnMap mixColumn x

/-- `inv_mix_columns` (R150). -/
def invMixColumns (x : Block) : Block := columnMap invMixColumn x

/-! ### Whiten -/

/-- `add_round_key` (R151). -/
def addRoundKey (x rk : Block) : Block := x.xor rk

/-! ### The commands -/

/-- `SBOXB a`: `FR <- sbox(a)` (R153). -/
def execSboxb (a : Byte) (m : State) : Result := .next (finishFr (sbox a) m)

/-- `ISBOXB a`: `FR <- inv_sbox(a)` (R154). -/
def execIsboxb (a : Byte) (m : State) : Result := .next (finishFr (invSbox a) m)

/-- `SUBB`: `S <- sub_bytes(S)` (R155). -/
def execSubb (m : State) : Result := .next (finishS (subBytes m.s) m)

/-- `ISUBB`: `S <- inv_sub_bytes(S)` (R156). -/
def execIsubb (m : State) : Result := .next (finishS (invSubBytes m.s) m)

/-- `SHROW`: `S <- shift_rows(S)` (R157). -/
def execShrow (m : State) : Result := .next (finishS (shiftRows m.s) m)

/-- `ISHROW`: `S <- inv_shift_rows(S)` (R158). -/
def execIshrow (m : State) : Result := .next (finishS (invShiftRows m.s) m)

/-- `MIXC`: `S <- mix_columns(S)` (R159). -/
def execMixc (m : State) : Result := .next (finishS (mixColumns m.s) m)

/-- `IMIXC`: `S <- inv_mix_columns(S)` (R160). -/
def execImixc (m : State) : Result := .next (finishS (invMixColumns m.s) m)

/-- `ADDRK`: `S <- add_round_key(S, RK)`, whatever `RND` holds (R161). -/
def execAddrk (m : State) : Result := .next (finishS (addRoundKey m.s m.rk) m)

end Sys2Proof.Machine
end

