-- ==== Sys2Proof/Machine/KeySchedule.lean ====
section
/-! DEFINITION. The key schedule (spec/42_key_schedule.md): the round constants, the forward and the backward step, and the commands
`KSLOAD`, `KSNEXT` and `KSPREV` on the register pair `RK`, `RND`. -/

namespace Sys2Proof.Machine

/-! ### The functions -/

/-- `RCON[1]` to `RCON[10]` (R171). -/
def rconTable : List Byte :=
  [0x01#8, 0x02#8, 0x04#8, 0x08#8, 0x10#8, 0x20#8, 0x40#8, 0x80#8, 0x1B#8, 0x36#8]

/-- `RCON[r]`: `RCON[0]` and `RCON[r]` for `r > 10` do not exist (R171). -/
def rcon : Nat → Option Byte
  | 0 => none
  | r + 1 => rconTable[r]?

/-- `ks_g` with the round constant `c` (R172): the word rotated left by one byte, substituted, `c` into its first byte. -/
def ksG (c : Byte) (w : Quad) : Quad := ⟨sbox w.b1 ^^^ c, sbox w.b2, sbox w.b3, sbox w.b0⟩

/-- The forward step with the round constant `c` (R173). -/
def keyForward (c : Byte) (v : Block) : Block :=
  let w0 := v.q0.xor (ksG c v.q3)
  let w1 := v.q1.xor w0
  let w2 := v.q2.xor w1
  let w3 := v.q3.xor w2
  ⟨w0, w1, w2, w3⟩

/-- The backward step with the round constant `c` (R174): the last word of the earlier key comes first. -/
def keyBackward (c : Byte) (w : Block) : Block :=
  let v3 := w.q3.xor w.q2
  let v2 := w.q2.xor w.q1
  let v1 := w.q1.xor w.q0
  let v0 := w.q0.xor (ksG c v3)
  ⟨v0, v1, v2, v3⟩

/-- `next_round_key(rk, r)`: round key `r + 1` from round key `r`, for `r` in 0..9 and for no other `r` (R173). -/
def nextRoundKey (rk : Block) (r : Nat) : Option Block := (rcon (r + 1)).map fun c => keyForward c rk

/-- `previous_round_key(rk, r)`: round key `r - 1` from round key `r`, for `r` in 1..10 and for no other `r` (R174). -/
def previousRoundKey (rk : Block) (r : Nat) : Option Block := (rcon r).map fun c => keyBackward c rk

/-- `round_key(k, r)`: the round key `r` of the key `k`, for `r` in 0..10 (R176). -/
def roundKey (k : Block) : Nat → Option Block
  | 0 => some k
  | r + 1 => (roundKey k r).bind fun rk => nextRoundKey rk r

/-! ### The commands -/

/-- `KSLOAD`: `RK <- K; RND <- 0` (R177). -/
def execKsload (m : State) : Result := .next (finishRound m.k 0#4 m)

/-- `KSNEXT`: one round key forward, `ERR_RND` when `RND >= 10` (R178). -/
def execKsnext (m : State) : Result :=
  match nextRoundKey m.rk m.rnd.toNat with
  | none => .next (fail .errRnd m)
  | some rk => .next (finishRound rk (m.rnd + 1#4) m)

/-- `KSPREV`: one round key backward, `ERR_RND` when `RND = 0` or `RND > 10` (R179). -/
def execKsprev (m : State) : Result :=
  match previousRoundKey m.rk m.rnd.toNat with
  | none => .next (fail .errRnd m)
  | some rk => .next (finishRound rk (m.rnd - 1#4) m)

end Sys2Proof.Machine
end

