-- ==== Sys2Proof/Machine/Cipher.lean ====
section
/-! DEFINITION. The block cipher (spec/43_block_cipher.md): `encrypt_block`, `decrypt_block` and the commands `ENCBLK` and `DECBLK`.
Each invocation runs a key schedule of its own, started at the key (spec/10_state.md R35). -/

namespace Sys2Proof.Machine

/-! ### The functions -/

/-- What one invocation works on: the block and its own key-schedule state (R35). -/
structure CipherState where
  s : Block
  ks : Block
  deriving DecidableEq, Repr

/-- A full round: substitute, shift, mix, step the schedule with the constant `c`, whiten (R186). -/
def encRound (x : CipherState) (c : Byte) : CipherState :=
  let ks := keyForward c x.ks
  ⟨addRoundKey (mixColumns (shiftRows (subBytes x.s))) ks, ks⟩

/-- The final round, without the mix (R186). -/
def encFinalRound (x : CipherState) (c : Byte) : CipherState :=
  let ks := keyForward c x.ks
  ⟨addRoundKey (shiftRows (subBytes x.s)) ks, ks⟩

/-- The constants of the nine full rounds of encryption: `RCON[1]` to `RCON[9]`. -/
def fullRoundConstants : List Byte := rconTable.take 9

/-- The constant of the final round: `RCON[10]`. -/
def finalRoundConstant : Byte := 0x36#8

/-- `encrypt_block(p, k)` (R186): whiten, nine full rounds, one round without the mix. -/
def encryptBlock (p k : Block) : Block :=
  (encFinalRound (fullRoundConstants.foldl encRound ⟨addRoundKey p k, k⟩) finalRoundConstant).s

/-- The round key 10 of `k`, by the forward schedule run to completion (R187). -/
def lastRoundKey (k : Block) : Block := rconTable.foldl (fun ks c => keyForward c ks) k

/-- Undoes the final whiten, shift and substitute with the round key in the schedule (R187). -/
def decFirst (c ks : Block) : CipherState := ⟨invSubBytes (invShiftRows (addRoundKey c ks)), ks⟩

/-- Steps the schedule backward with the constant `c` and undoes one full round: whiten, mix, shift, substitute (R187). -/
def decRound (x : CipherState) (c : Byte) : CipherState :=
  let ks := keyBackward c x.ks
  ⟨invSubBytes (invShiftRows (invMixColumns (addRoundKey x.s ks))), ks⟩

/-- The constants of the nine backward steps that undo full rounds: `RCON[10]` down to `RCON[2]` (R187). -/
def undoRoundConstants : List Byte := (rconTable.drop 1).reverse

/-- The constant of the last backward step: `RCON[1]` (R187). -/
def undoLastConstant : Byte := 0x01#8

/-- `decrypt_block(c, k)` (R187): the schedule forward to round key 10, then the steps of encryption undone in reverse order. -/
def decryptBlock (c k : Block) : Block :=
  let x := undoRoundConstants.foldl decRound (decFirst c (lastRoundKey k))
  addRoundKey x.s (keyBackward undoLastConstant x.ks)

/-! ### The commands -/

/-- `ENCBLK`: `S <- encrypt_block(S, K)`; `RK` and `RND` take no part (R190). -/
def execEncblk (m : State) : Result := .next (finishS (encryptBlock m.s m.k) m)

/-- `DECBLK`: `S <- decrypt_block(S, K)`; `RK` and `RND` take no part (R191). -/
def execDecblk (m : State) : Result := .next (finishS (decryptBlock m.s m.k) m)

end Sys2Proof.Machine
end

