-- ==== Sys2Proof/Machine/Operands.lean ====
section
/-! DEFINITION. The one addressing mode of the buffer commands (spec/20_memory.md R66, R67, R74): the `LEN` bytes at `SRC` as input, and
the range check on both buffers. The other operands are fields of the command word (Decode.lean) or whole registers. -/

namespace Sys2Proof.Machine

/-- `SRC + LEN <= MEM_BYTES`, the sum taken over the unbounded integers (R66). -/
def srcInRange (m : State) : Bool := m.src.toNat + m.len.toNat ≤ m.memBytes

/-- `DST + outlen <= MEM_BYTES` (R66). -/
def dstInRange (outlen : Nat) (m : State) : Bool := m.dst.toNat + outlen ≤ m.memBytes

/-- The whole input of a buffer command, `MemRead(SRC, LEN)`, read before anything is written (R67). -/
def inputBytes (m : State) : List Byte := Memory.readBytes m.mem m.src.toNat m.len.toNat

end Sys2Proof.Machine
end

