-- ==== Sys2Proof/Machine/Modes.lean ====
section
/-! DEFINITION. The modes of operation (spec/44_modes.md): ECB, CBC encryption and decryption and CTR as functions of a byte string and a
block transform, and the commands `ECB`, `CBCE`, `CBCD` and `CTR` that apply them to buffers. -/

namespace Sys2Proof.Machine

/-! ### Byte strings as blocks -/

/-- A byte string as its blocks: none when its length is no multiple of 16, the length mismatch of R202 to R204. -/
def splitBlocks : List Byte → Option (List Block)
  | [] => some []
  | a0 :: a1 :: a2 :: a3 :: a4 :: a5 :: a6 :: a7 :: a8 :: a9 :: a10 :: a11 :: a12 :: a13 :: a14 :: a15 :: rest =>
    (splitBlocks rest).map fun bs =>
      ⟨⟨a0, a1, a2, a3⟩, ⟨a4, a5, a6, a7⟩, ⟨a8, a9, a10, a11⟩, ⟨a12, a13, a14, a15⟩⟩ :: bs
  | _ => none

/-- The byte string of a list of blocks: block `i` is its bytes `16i` to `16i + 15` (R74). -/
def joinBlocks (bs : List Block) : List Byte := bs.flatMap blockBytes

/-! ### The functions -/

/-- The block transform `T(dir)` under the key `k` (R200). -/
def blockTransform (d : Dir) (k : Block) (x : Block) : Block :=
  match d with
  | .forward => encryptBlock x k
  | .inverse => decryptBlock x k

/-- `ecb(f, in)` (R202). -/
def ecb (f : Block → Block) (input : List Byte) : Option (List Byte) :=
  (splitBlocks input).map fun bs => joinBlocks (bs.map f)

/-- The output blocks of CBC encryption, `prev` the previous one (R203). -/
def cbcEncryptBlocks (f : Block → Block) (prev : Block) : List Block → List Block
  | [] => []
  | b :: bs =>
    let c := f (b.xor prev)
    c :: cbcEncryptBlocks f c bs

/-- `cbc_encrypt(f, iv, in)` (R203). -/
def cbcEncrypt (f : Block → Block) (iv : Block) (input : List Byte) : Option (List Byte) :=
  (splitBlocks input).map fun bs => joinBlocks (cbcEncryptBlocks f iv bs)

/-- The output blocks of CBC decryption, `prev` the previous input block (R204). -/
def cbcDecryptBlocks (f : Block → Block) (prev : Block) : List Block → List Block
  | [] => []
  | b :: bs => (f b).xor prev :: cbcDecryptBlocks f b bs

/-- `cbc_decrypt(f, iv, in)` (R204). -/
def cbcDecrypt (f : Block → Block) (iv : Block) (input : List Byte) : Option (List Byte) :=
  (splitBlocks input).map fun bs => joinBlocks (cbcDecryptBlocks f iv bs)

/-- Byte `8 + i` of the counter block of index `j`: the byte of weight `256^(7 - i)` (R205). -/
def indexByte (j i : Nat) : Byte := BitVec.ofNat 8 (j >>> (8 * (7 - i)))

/-- `counter_block(nonce, j)`: the nonce in bytes 0..7, the block index in bytes 8..15, most significant byte first (R205). -/
def counterBlock (n : Nonce) (j : Nat) : Block :=
  ⟨n.q0, n.q1, ⟨indexByte j 0, indexByte j 1, indexByte j 2, indexByte j 3⟩,
    ⟨indexByte j 4, indexByte j 5, indexByte j 6, indexByte j 7⟩⟩

/-- `^` of two byte strings over the length of the shorter one: the rest of a keystream block is discarded (R206). -/
def xorBytes (xs ys : List Byte) : List Byte := List.zipWith (· ^^^ ·) xs ys

/-- The output of CTR from block index `j` on, with `n` blocks left (R206). -/
def ctrBlocks (f : Block → Block) (nonce : Nonce) : (n j : Nat) → List Byte → List Byte
  | 0, _, _ => []
  | n + 1, j, input =>
    xorBytes (input.take 16) (blockBytes (f (counterBlock nonce j))) ++ ctrBlocks f nonce n (j + 1) (input.drop 16)

/-- `ctr(f, nonce, in)` for a byte string of any length (R206). -/
def ctr (f : Block → Block) (nonce : Nonce) (input : List Byte) : List Byte :=
  ctrBlocks f nonce ((input.length + 15) / 16) 0 input

/-! ### The commands -/

/-- The frame of every mode command (R201): the range check, the whole input read, the whole output written. The length check of
`needs16` comes before it; a mode function that has no result for the input reports the same length mismatch (DESIGN CHOICE,
log entry 9, safe: it never comes to that). -/
def modeCommand (needs16 : Bool) (modeFn : List Byte → Option (List Byte)) (m : State) : Result :=
  if needs16 ∧ m.len.toNat % 16 ≠ 0 then .next (fail .errLen m)
  else if srcInRange m ∧ dstInRange m.len.toNat m then
    match modeFn (inputBytes m) with
    | none => .next (fail .errLen m)
    | some out => .next (finishBuffer out m)
  else .next (fail .errRange m)

/-- `ECB.dir` (R208). -/
def execEcb (d : Dir) (m : State) : Result :=
  modeCommand true (ecb (blockTransform d m.k)) m

/-- `CBCE.dir` (R209). -/
def execCbce (d : Dir) (m : State) : Result :=
  modeCommand true (cbcEncrypt (blockTransform d m.k) m.cv) m

/-- `CBCD.dir` (R210). -/
def execCbcd (d : Dir) (m : State) : Result :=
  modeCommand true (cbcDecrypt (blockTransform d m.k) m.cv) m

/-- `CTR.dir` (R211). -/
def execCtr (d : Dir) (m : State) : Result :=
  modeCommand false (fun input => some (ctr (blockTransform d m.k) m.nonce input)) m

end Sys2Proof.Machine
end

