-- ==== Sys2Proof/Machine/Padding.lean ====
section
/-! DEFINITION. PKCS#7 padding (spec/45_padding.md): `pad`, `unpad` and the commands `PAD` and `UNPAD`. -/

namespace Sys2Proof.Machine

/-! ### The functions -/

/-- The number of padding bytes, `n = bs - (L mod bs)` (R230). -/
def padCount (length bs : Nat) : Nat := bs - length % bs

/-- A byte string with `n` bytes of value `n` after it (R230). -/
def appendPad (buf : List Byte) (n : Nat) : List Byte := buf ++ List.replicate n (BitVec.ofNat 8 n)

/-- `pad(buf, bs)`, defined for `bs` in 1..255 alone (R230). -/
def pad (buf : List Byte) (bs : Nat) : Option (List Byte) :=
  if 1 ≤ bs ∧ bs ≤ 255 then some (appendPad buf (padCount buf.length bs)) else none

/-- `unpad(buf)` (R231): one failure outcome, whichever check fails. -/
def unpad (buf : List Byte) : Option (List Byte) :=
  match buf.getLast? with
  | none => none
  | some n =>
    if n = 0#8 then none
    else if buf.length < n.toNat then none
    else if (buf.drop (buf.length - n.toNat)).all (· == n) then some (buf.take (buf.length - n.toNat))
    else none

/-! ### The commands -/

/-- `PAD bs` (R233). The term with `bs = 0` is no decoded command; it fails as its word does (R94; DESIGN CHOICE, log
entry 8, safe). -/
def execPad (bs : Byte) (m : State) : Result :=
  if bs = 0#8 then .next (fail .errCmd m)
  else
    let n := padCount m.len.toNat bs.toNat
    if srcInRange m ∧ dstInRange (m.len.toNat + n) m then
      .next (finishBuffer (appendPad (inputBytes m) n) m)
    else .next (fail .errRange m)

/-- `UNPAD` (R234): it validates the padding and reports the length without it. -/
def execUnpad (m : State) : Result :=
  if srcInRange m then
    match unpad (inputBytes m) with
    | none => .next (fail .errPad m)
    | some r => .next (finishLength r.length m)
  else .next (fail .errRange m)

end Sys2Proof.Machine
end

