-- ==== Sys2Proof/Machine/Dispatch.lean ====
section
/-! DEFINITION. The meaning of every command: one arm for each constructor of `Instr`. `CMD` holds the command word already when a
command runs (spec/30_encoding.md R95). -/

namespace Sys2Proof.Machine

/-- Runs a decoded command (R95). -/
def exec (i : Instr) (s : State) : Host.Outcome State Fault Refusal :=
  match i with
  | .gfmul a b => Sys2Proof.Machine.execGfmul a b s
  | .gfpow a n => Sys2Proof.Machine.execGfpow a n s
  | .gfinv a => Sys2Proof.Machine.execGfinv a s
  | .sboxb a => Sys2Proof.Machine.execSboxb a s
  | .isboxb a => Sys2Proof.Machine.execIsboxb a s
  | .subb => Sys2Proof.Machine.execSubb s
  | .isubb => Sys2Proof.Machine.execIsubb s
  | .shrow => Sys2Proof.Machine.execShrow s
  | .ishrow => Sys2Proof.Machine.execIshrow s
  | .mixc => Sys2Proof.Machine.execMixc s
  | .imixc => Sys2Proof.Machine.execImixc s
  | .addrk => Sys2Proof.Machine.execAddrk s
  | .ksload => Sys2Proof.Machine.execKsload s
  | .ksnext => Sys2Proof.Machine.execKsnext s
  | .ksprev => Sys2Proof.Machine.execKsprev s
  | .encblk => Sys2Proof.Machine.execEncblk s
  | .decblk => Sys2Proof.Machine.execDecblk s
  | .ecb dir => Sys2Proof.Machine.execEcb dir s
  | .cbce dir => Sys2Proof.Machine.execCbce dir s
  | .cbcd dir => Sys2Proof.Machine.execCbcd dir s
  | .ctr dir => Sys2Proof.Machine.execCtr dir s
  | .pad bs => Sys2Proof.Machine.execPad bs s
  | .unpad => Sys2Proof.Machine.execUnpad s

end Sys2Proof.Machine
end

