-- ==== Sys2Proof/Machine/HostPort.lean ====
section
/-! DEFINITION. The host port: what each host action does (spec/00_scope.md R10, R11; spec/10_state.md R36 to R38; spec/20_memory.md R76;
spec/70_reset_and_hazards.md R280), and the host-script notation of spec/30_encoding.md R97 and R98 as lists of host actions. -/

namespace Sys2Proof.Machine

/-! ### Host actions -/

/-- `execute(w)`, the effect of the host writing `w` to `CMD` (R31, R95): the word is stored, then decoded, and a reserved encoding
fails with `ERR_CMD` (R94). -/
def runCommand (w : Word) (m : State) : Result :=
  match decode w with
  | .ok i => exec i { m with cmd := w }
  | .error _ => .next (fail .errCmd { m with cmd := w })

/-- The register that a register access reaches, or why the access is malformed (R36, R38, R261). -/
def portReg (off bits : Nat) : Except Refusal Reg :=
  if bits = 32 then
    match regAt off with
    | some r => .ok r
    | none => .error (.unlistedOffset off)
  else .error (.accessWidth bits)

/-- A register read (R36, R38). -/
def hostRegRead (off bits : Nat) (m : State) : Result :=
  match portReg off bits with
  | .ok r => .next (observe (.register (readReg r m)) m)
  | .error e => .refused e

/-- A register write (R36, R38): a write to `CMD` executes the word. -/
def hostRegWrite (off bits : Nat) (v : Word) (m : State) : Result :=
  match portReg off bits with
  | .ok r => if r = .cmd then runCommand v m else .next (writeReg r v m)
  | .error e => .refused e

/-- `BufRead(a)` (R76). -/
def hostBufRead (a : Nat) (m : State) : Result :=
  if a < m.memBytes then .next (observe (.buffer (Memory.read m.mem a)) m)
  else .refused (.bufferAddress a)

/-- `BufWrite(a, b)` (R76). -/
def hostBufWrite (a : Nat) (b : Byte) (m : State) : Result :=
  if a < m.memBytes then .next { m with mem := Memory.write m.mem a b }
  else .refused (.bufferAddress a)

/-- One host action (R10, R11). -/
def act (a : HostAction) (m : State) : Result :=
  match a with
  | .regRead off bits => hostRegRead off bits m
  | .regWrite off bits v => hostRegWrite off bits v m
  | .bufRead a => hostBufRead a m
  | .bufWrite a b => hostBufWrite a b m
  | .reset image => .next (applyReset image m)

/-- The next host action of the script, taken off it and performed (R286). With no action left the core is idle and keeps all its
state (R260; log entry 5). -/
def hostStep (m : State) : Result :=
  match m.script with
  | [] => .next m
  | a :: rest => act a { m with script := rest }

/-! ### Host scripts -/

/-- `WR reg, value` (R97). -/
def wr (r : Reg) (v : Word) : HostAction := .regWrite (regOffset r) 32 v

/-- `RD reg` (R97). -/
def rd (r : Reg) : HostAction := .regRead (regOffset r) 32

/-- A command line of a host script: `WR CMD, <the encoding>` (R97). The pseudo-instructions `ECBENC`, `ECBDEC`, `CBCENC`, `CBCDEC` and
`CTRX` of R98 are command lines for `ECB.F`, `ECB.I`, `CBCE.F`, `CBCD.I` and `CTR.F`. -/
def commandLine (i : Instr) : HostAction := wr .cmd (encode i)

/-- `ECBENC` (R98). -/
def scriptEcbenc : HostAction := commandLine (.ecb .forward)

/-- `ECBDEC` (R98). -/
def scriptEcbdec : HostAction := commandLine (.ecb .inverse)

/-- `CBCENC` (R98). -/
def scriptCbcenc : HostAction := commandLine (.cbce .forward)

/-- `CBCDEC` (R98). -/
def scriptCbcdec : HostAction := commandLine (.cbcd .inverse)

/-- `CTRX` (R98). -/
def scriptCtrx : HostAction := commandLine (.ctr .forward)

/-- `LDBLK X, h` (R98), `reg` the word registers of one of `K`, `RK`, `S`, `CV`. -/
def scriptLdblk (reg : Fin 4 → Reg) (x : Block) : List HostAction :=
  [wr (reg 0) (laneWord x.q0), wr (reg 1) (laneWord x.q1), wr (reg 2) (laneWord x.q2), wr (reg 3) (laneWord x.q3)]

/-- `LDNONCE h` (R98). -/
def scriptLdnonce (n : Nonce) : List HostAction :=
  [wr (.nonce 0) (laneWord n.q0), wr (.nonce 1) (laneWord n.q1)]

/-- `WRBUF addr, h` (R98). -/
def scriptWrbuf (addr : Nat) : List Byte → List HostAction
  | [] => []
  | b :: bs => .bufWrite addr b :: scriptWrbuf (addr + 1) bs

/-- `SETBUF s, d, l` (R98). -/
def scriptSetbuf (s d l : Word) : List HostAction := [wr .src s, wr .dst d, wr .len l]

end Sys2Proof.Machine
end

