-- ==== Sys2Proof/Machine/Step.lean ====
section
/-! DEFINITION. The step of the machine, one host action (spec/00_scope.md R11), and the placing of a command word where the next step
runs it. -/

namespace Sys2Proof.Machine

/-- One step: the next host action of the script (R11, R286). -/
def step (s : State) : Host.Outcome State Fault Refusal := hostStep s

/-- The state whose next host action writes the command word `w` to `CMD` (R31, R97), so that the next step runs it. The core fetches no
instruction (R33): a command comes to run by this host action, the first of the script (log entry 6). -/
def State.withFetchWord (s : State) (nbits w : Nat) : State :=
  { s with script := .regWrite 0x00 32 (BitVec.ofNat 32 (w % 2 ^ nbits)) :: s.script }

end Sys2Proof.Machine
end

