-- ==== Sys2Proof/Safety.lean ====
section
/-! DEFINITION. What counts as a sound state and as an unchanged part of one, in the terms the statements use. -/

namespace Sys2Proof.Machine

/-- The invariant of the machine: memory is in canonical form and lists no address outside the buffer space (R60). -/
def State.Inv (m : State) : Prop :=
  Memory.wf m.mem = true ∧ Memory.within m.memBytes m.mem = true

/-- The registers that no command writes, only the host (R21, R25, R26, R27), and `CMD`, which the host's write has set before the command
runs (R95, R42). -/
def SameHostRegs (m t : State) : Prop :=
  t.k = m.k ∧ t.cv = m.cv ∧ t.nonce = m.nonce ∧ t.src = m.src ∧ t.dst = m.dst ∧ t.len = m.len ∧ t.cmd = m.cmd

/-- What is no state of the core (R40): the size of the buffer space, the actions still to come and the observations made. -/
def SameRun (m t : State) : Prop :=
  t.memLast = m.memLast ∧ t.script = m.script ∧ t.observed = m.observed

/-- `RK` and `RND` are unchanged. -/
def SameSchedule (m t : State) : Prop := t.rk = m.rk ∧ t.rnd = m.rnd

/-- Every byte of `MEM` reads as before. -/
def SameMem (m t : State) : Prop := ∀ a, Memory.read t.mem a = Memory.read m.mem a

/-- Every byte of `MEM` outside the `n` bytes at `base` reads as before. -/
def SameMemOutside (m t : State) (base n : Nat) : Prop :=
  ∀ a, a < base ∨ base + n ≤ a → Memory.read t.mem a = Memory.read m.mem a

/-- The frame of a command that writes `FR` and `STATUS` alone (R128 to R130, R153, R154). -/
def FrameFr (m t : State) : Prop :=
  SameHostRegs m t ∧ SameRun m t ∧ SameSchedule m t ∧ SameMem m t ∧ t.s = m.s ∧ t.rlen = m.rlen

/-- The frame of a command that writes `S` and `STATUS` alone (R155 to R161, R190, R191). -/
def FrameS (m t : State) : Prop :=
  SameHostRegs m t ∧ SameRun m t ∧ SameSchedule m t ∧ SameMem m t ∧ t.fr = m.fr ∧ t.rlen = m.rlen

/-- The frame of a command that writes `RK`, `RND` and `STATUS` alone (R177 to R179). -/
def FrameSchedule (m t : State) : Prop :=
  SameHostRegs m t ∧ SameRun m t ∧ SameMem m t ∧ t.s = m.s ∧ t.fr = m.fr ∧ t.rlen = m.rlen

/-- The frame of a buffer command that writes the `n` bytes of `MEM` at `DST`, `RLEN` and `STATUS` alone (R212, R233). -/
def FrameBuffer (m t : State) (n : Nat) : Prop :=
  SameHostRegs m t ∧ SameRun m t ∧ SameSchedule m t ∧ t.s = m.s ∧ t.fr = m.fr ∧ SameMemOutside m t m.dst.toNat n

/-- The frame of `UNPAD`, which writes `RLEN` and `STATUS` alone (R234). -/
def FrameLength (m t : State) : Prop :=
  SameHostRegs m t ∧ SameRun m t ∧ SameSchedule m t ∧ SameMem m t ∧ t.s = m.s ∧ t.fr = m.fr

/-- A host action to which the interface gives no meaning in a buffer space of `limit` bytes (R261). -/
def malformed (limit : Nat) : HostAction → Bool
  | .regRead off bits => bits ≠ 32 || (regAt off).isNone
  | .regWrite off bits _ => bits ≠ 32 || (regAt off).isNone
  | .bufRead a => limit ≤ a
  | .bufWrite a _ => limit ≤ a
  | .reset _ => false

/-- The commands that need a length that is a multiple of 16 (R201). -/
def needs16 : Instr → Bool
  | .ecb _ | .cbce _ | .cbcd _ => true
  | .gfmul _ _ | .gfpow _ _ | .gfinv _ | .sboxb _ | .isboxb _ => false
  | .subb | .isubb | .shrow | .ishrow | .mixc | .imixc | .addrk => false
  | .ksload | .ksnext | .ksprev | .encblk | .decblk => false
  | .ctr _ | .pad _ | .unpad => false

/-- Both buffers of a command lie in the buffer space (R66): the output length is `LEN` for the mode commands and `LEN + n` for `PAD`, and
`UNPAD` has no output buffer. A command without buffers has nothing to check. -/
def buffersInRange (m : State) : Instr → Prop
  | .ecb _ | .cbce _ | .cbcd _ | .ctr _ =>
    m.src.toNat + m.len.toNat ≤ m.memBytes ∧ m.dst.toNat + m.len.toNat ≤ m.memBytes
  | .pad bs =>
    m.src.toNat + m.len.toNat ≤ m.memBytes ∧
      m.dst.toNat + (m.len.toNat + (bs.toNat - m.len.toNat % bs.toNat)) ≤ m.memBytes
  | .unpad => m.src.toNat + m.len.toNat ≤ m.memBytes
  | .gfmul _ _ | .gfpow _ _ | .gfinv _ | .sboxb _ | .isboxb _ => True
  | .subb | .isubb | .shrow | .ishrow | .mixc | .imixc | .addrk => True
  | .ksload | .ksnext | .ksprev | .encblk | .decblk => True

/-- The number of a register word that carries a quad (R37). -/
def laneValue (q : Quad) : Nat :=
  q.b0.toNat + 256 * q.b1.toNat + 65536 * q.b2.toNat + 16777216 * q.b3.toNat

end Sys2Proof.Machine
end

