-- ==== Sys2Proof/Certificates/Slice0/Obligations.lean ====
section
/-! DEFINITION. The statements about the model, each from the numbered rules of the spec. OBLIGATIONS.json lists them in this order. -/

open Sys2Proof Sys2Proof.Machine

/-! ### Encoding -/

/-- Decoding the encoded word of a well-formed command gives the command back, with every operand at every value (R92, R93, R95). -/
def Obligations.DecodeUndoesEncode : Prop :=
  ∀ i : Instr, wellFormed i = true → decode (encode i) = .ok i

/-- A word that decodes is the encoding of the command it decodes to, and that command is well formed: the decoder drops no bit of a
word it accepts (R94, R95). -/
def Obligations.EncodeUndoesDecode : Prop :=
  ∀ (w : Word) (i : Instr), decode w = .ok i → encode i = w ∧ wellFormed i = true

/-- The opcode map has 23 rows, a word encodes the command of a row exactly when `w & mask == match` (for `PAD` also `bs != 0`), and
the worked encodings of the rule decode as it says (R93). -/
def Obligations.WordEncodesExactlyWhenMaskMatches : Prop :=
  opcodeRows.length = 23 ∧
  (∀ r ∈ opcodeRows, ∀ w : Word, (∃ i, decode w = .ok i ∧ opcodeOf i = r.op) ↔ rowMatches r w = true) ∧
  decode 0x00835701#32 = .ok (.gfmul 0x57#8 0x83#8) ∧ decode 0x00FE5302#32 = .ok (.gfpow 0x53#8 254#8) ∧
  decode 0x00005303#32 = .ok (.gfinv 0x53#8) ∧ decode 0x00005310#32 = .ok (.sboxb 0x53#8) ∧
  decode 0x00000040#32 = .ok (.ecb .forward) ∧ decode 0x00000140#32 = .ok (.ecb .inverse) ∧
  decode 0x00000142#32 = .ok (.cbcd .inverse) ∧ decode 0x00000043#32 = .ok (.ctr .forward) ∧
  decode 0x00001050#32 = .ok (.pad 16#8) ∧ decode 0x00000051#32 = .ok .unpad

/-- One word of each row of the opcode map, written out from the formats of R91, decodes to the command it stands for, and words beside
them are rejected for the reason R94 gives (95_test_vectors.md section 9). -/
def Obligations.WrittenOutWordsDecode : Prop :=
  (decode 0x00135701#32 = .ok (.gfmul 0x57#8 0x13#8) ∧ decode 0x00080202#32 = .ok (.gfpow 0x02#8 8#8) ∧
    decode 0x0000CA03#32 = .ok (.gfinv 0xCA#8) ∧ decode 0x00007C10#32 = .ok (.sboxb 0x7C#8) ∧
    decode 0x0000ED11#32 = .ok (.isboxb 0xED#8) ∧ decode 0x00000012#32 = .ok .subb ∧ decode 0x00000013#32 = .ok .isubb ∧
    decode 0x00000014#32 = .ok .shrow ∧ decode 0x00000015#32 = .ok .ishrow ∧ decode 0x00000016#32 = .ok .mixc ∧
    decode 0x00000017#32 = .ok .imixc ∧ decode 0x00000018#32 = .ok .addrk) ∧
  (decode 0x00000020#32 = .ok .ksload ∧ decode 0x00000021#32 = .ok .ksnext ∧ decode 0x00000022#32 = .ok .ksprev ∧
    decode 0x00000030#32 = .ok .encblk ∧ decode 0x00000031#32 = .ok .decblk ∧ decode 0x00000140#32 = .ok (.ecb .inverse) ∧
    decode 0x00000041#32 = .ok (.cbce .forward) ∧ decode 0x00000142#32 = .ok (.cbcd .inverse) ∧
    decode 0x00000143#32 = .ok (.ctr .inverse) ∧ decode 0x0000FF50#32 = .ok (.pad 255#8) ∧ decode 0x00000051#32 = .ok .unpad) ∧
  (decode 0x00000000#32 = .error .opcode ∧ decode 0x01835701#32 = .error .mustBeZero ∧ decode 0x00000240#32 = .error .mustBeZero ∧
    decode 0x00000050#32 = .error .padSizeZero ∧ decode 0xFFFFFFFF#32 = .error .opcode)

/-- A word that no row of the opcode map matches executes as a failed command: `STATUS.CODE <- ERR_CMD`, and no other change except that
`CMD` holds the word (R94). -/
def Obligations.ReservedWordFailsWithErrCmd : Prop :=
  ∀ (m : State) (rest : List HostAction) (w : Word), m.script = wr .cmd w :: rest →
    (∀ r ∈ opcodeRows, rowMatches r w = false) →
    step m = .next { m with script := rest, cmd := w, status := .errCmd }

/-! ### The step and the host port -/

/-- A step whose host action writes a word that decodes to a command runs that command, in the state in which the action is taken off
the script and `CMD` holds the word (R31, R95). -/
def Obligations.CmdWriteRunsDecodedCommand : Prop :=
  ∀ (m : State) (rest : List HostAction) (w : Word) (i : Instr), m.script = wr .cmd w :: rest → decode w = .ok i →
    step m = exec i { m with script := rest, cmd := w }

/-- A host write to `CMD` stores the word and executes it as a command, which may succeed or fail; a host read of `CMD` returns what it
holds, and nothing but a write to `CMD` and a reset changes that (R31). -/
def Obligations.CmdReadsBackLastWordWritten : Prop :=
  (∀ (m : State) (rest : List HostAction) (w : Word), m.script = wr .cmd w :: rest →
    ∃ t, step m = .next t ∧ t.cmd = w ∧
      (∀ i, decode w = .ok i → exec i { m with script := rest, cmd := w } = .next t) ∧
      (∀ e, decode w = .error e → t.status = .errCmd)) ∧
  (∀ (m : State) (rest : List HostAction), m.script = rd .cmd :: rest →
    step m = .next { m with script := rest, observed := m.observed ++ [.register m.cmd] }) ∧
  (∀ m t : State, step m = .next t → (∀ w rest, m.script ≠ wr .cmd w :: rest) → (∀ image rest, m.script ≠ .reset image :: rest) →
    t.cmd = m.cmd)

/-- The register map: each of the 26 registers stands at the offset of its row, and the port answers at the listed offsets and at no
others (R36). -/
def Obligations.RegisterMapListsOffsets : Prop :=
  (regAt 0x00 = some .cmd ∧ regAt 0x04 = some .status ∧ regAt 0x08 = some .src ∧ regAt 0x0C = some .dst ∧
    regAt 0x10 = some .len ∧ regAt 0x14 = some .rlen ∧ regAt 0x18 = some .fr ∧ regAt 0x1C = some .rnd) ∧
  (regAt 0x20 = some (.k 0) ∧ regAt 0x24 = some (.k 1) ∧ regAt 0x28 = some (.k 2) ∧ regAt 0x2C = some (.k 3)) ∧
  (regAt 0x30 = some (.rk 0) ∧ regAt 0x34 = some (.rk 1) ∧ regAt 0x38 = some (.rk 2) ∧ regAt 0x3C = some (.rk 3)) ∧
  (regAt 0x40 = some (.s 0) ∧ regAt 0x44 = some (.s 1) ∧ regAt 0x48 = some (.s 2) ∧ regAt 0x4C = some (.s 3)) ∧
  (regAt 0x50 = some (.cv 0) ∧ regAt 0x54 = some (.cv 1) ∧ regAt 0x58 = some (.cv 2) ∧ regAt 0x5C = some (.cv 3)) ∧
  (regAt 0x60 = some (.nonce 0) ∧ regAt 0x64 = some (.nonce 1)) ∧
  (∀ (off : Nat) (r : Reg), regAt off = some r ↔ regOffset r = off) ∧
  (∀ off : Nat, (regAt off).isSome = true ↔ off % 4 = 0 ∧ off < 0x68)

/-- The host access rules: `RND` stores bits 3..0; writes to `STATUS`, `RLEN` and `FR` are ignored; a write of any other register but `CMD`
stores the whole word, which a read returns, and has no other effect; a read returns the register's word and changes nothing, the word of
`CMD`, `SRC`, `DST`, `LEN` and `RLEN` being what the register holds and that of `FR` and `RND` its number with zero above; an offset
that is not listed is refused; every register is readable (R38, and for the words read R29, R36). -/
def Obligations.HostAccessRules : Prop :=
  ∀ (m : State) (rest : List HostAction) (v : Word),
    (m.script = wr .rnd v :: rest →
      step m = .next { m with script := rest, rnd := v.extractLsb' 0 4 }) ∧
    (∀ r ∈ [Reg.status, Reg.rlen, Reg.fr], m.script = wr r v :: rest → step m = .next { m with script := rest }) ∧
    (m.script = wr .src v :: rest → step m = .next { m with script := rest, src := v }) ∧
    (m.script = wr .dst v :: rest → step m = .next { m with script := rest, dst := v }) ∧
    (m.script = wr .len v :: rest → step m = .next { m with script := rest, len := v }) ∧
    (∀ j, m.script = wr (.k j) v :: rest → ∃ x, step m = .next { m with script := rest, k := x } ∧
      ∀ i, readReg (.k i) { m with k := x } = if i = j then v else readReg (.k i) m) ∧
    (∀ j, m.script = wr (.rk j) v :: rest → ∃ x, step m = .next { m with script := rest, rk := x } ∧
      ∀ i, readReg (.rk i) { m with rk := x } = if i = j then v else readReg (.rk i) m) ∧
    (∀ j, m.script = wr (.s j) v :: rest → ∃ x, step m = .next { m with script := rest, s := x } ∧
      ∀ i, readReg (.s i) { m with s := x } = if i = j then v else readReg (.s i) m) ∧
    (∀ j, m.script = wr (.cv j) v :: rest → ∃ x, step m = .next { m with script := rest, cv := x } ∧
      ∀ i, readReg (.cv i) { m with cv := x } = if i = j then v else readReg (.cv i) m) ∧
    (∀ j, m.script = wr (.nonce j) v :: rest → ∃ x, step m = .next { m with script := rest, nonce := x } ∧
      ∀ i, readReg (.nonce i) { m with nonce := x } = if i = j then v else readReg (.nonce i) m) ∧
    (∀ r, m.script = rd r :: rest →
      step m = .next { m with script := rest, observed := m.observed ++ [.register (readReg r m)] }) ∧
    (readReg .cmd m = m.cmd ∧ readReg .src m = m.src ∧ readReg .dst m = m.dst ∧ readReg .len m = m.len ∧
      readReg .rlen m = m.rlen ∧ (readReg .fr m).toNat = m.fr.toNat ∧ (readReg .rnd m).toNat = m.rnd.toNat) ∧
    (∀ off, 0x68 ≤ off ∨ off % 4 ≠ 0 →
      (m.script = .regRead off 32 :: rest → step m = .refused (.unlistedOffset off)) ∧
      (m.script = .regWrite off 32 v :: rest → step m = .refused (.unlistedOffset off)))

/-- The byte lanes: a host read of word `j` of a byte-string register returns the number `X[4j] + 256*X[4j+1] + 65536*X[4j+2] +
16777216*X[4j+3]`; a host write of word `j` replaces exactly those four bytes; the key of the rule's example loads from its four words
(R37). -/
def Obligations.ByteLanesAreLittleEndian : Prop :=
  (∀ (m : State) (rest : List HostAction),
    (∀ j : Fin 4, m.script = rd (.k j) :: rest → ∃ (t : State) (v : Word), step m = .next t ∧
      t.observed = m.observed ++ [Observation.register v] ∧ v.toNat = laneValue (blockQuad m.k j)) ∧
    (∀ j : Fin 4, m.script = rd (.rk j) :: rest → ∃ (t : State) (v : Word), step m = .next t ∧
      t.observed = m.observed ++ [Observation.register v] ∧ v.toNat = laneValue (blockQuad m.rk j)) ∧
    (∀ j : Fin 4, m.script = rd (.s j) :: rest → ∃ (t : State) (v : Word), step m = .next t ∧
      t.observed = m.observed ++ [Observation.register v] ∧ v.toNat = laneValue (blockQuad m.s j)) ∧
    (∀ j : Fin 4, m.script = rd (.cv j) :: rest → ∃ (t : State) (v : Word), step m = .next t ∧
      t.observed = m.observed ++ [Observation.register v] ∧ v.toNat = laneValue (blockQuad m.cv j)) ∧
    (∀ j : Fin 2, m.script = rd (.nonce j) :: rest → ∃ (t : State) (v : Word), step m = .next t ∧
      t.observed = m.observed ++ [Observation.register v] ∧ v.toNat = laneValue (nonceQuad m.nonce j))) ∧
  (∀ (m : State) (rest : List HostAction) (v : Word),
    let lane : Nat → Byte := fun i => BitVec.ofNat 8 (v.toNat / 256 ^ (i % 4))
    (∀ j : Fin 4, m.script = wr (.k j) v :: rest → ∃ t : State, step m = .next t ∧
      ∀ i : Fin 16, blockByte t.k i = if i.val / 4 = j.val then lane i.val else blockByte m.k i) ∧
    (∀ j : Fin 4, m.script = wr (.rk j) v :: rest → ∃ t : State, step m = .next t ∧
      ∀ i : Fin 16, blockByte t.rk i = if i.val / 4 = j.val then lane i.val else blockByte m.rk i) ∧
    (∀ j : Fin 4, m.script = wr (.s j) v :: rest → ∃ t : State, step m = .next t ∧
      ∀ i : Fin 16, blockByte t.s i = if i.val / 4 = j.val then lane i.val else blockByte m.s i) ∧
    (∀ j : Fin 4, m.script = wr (.cv j) v :: rest → ∃ t : State, step m = .next t ∧
      ∀ i : Fin 16, blockByte t.cv i = if i.val / 4 = j.val then lane i.val else blockByte m.cv i) ∧
    (∀ j : Fin 2, m.script = wr (.nonce j) v :: rest → ∃ t : State, step m = .next t ∧
      ∀ i : Fin 8, nonceByte t.nonce i = if i.val / 4 = j.val then lane i.val else nonceByte m.nonce i)) ∧
  (∀ m : State, ∃ t,
    Sys2Proof.core.run 4 { m with script :=
      [wr (.k 0) 0x16157E2B#32, wr (.k 1) 0xA6D2AE28#32, wr (.k 2) 0x8815F7AB#32, wr (.k 3) 0x3C4FCF09#32] } = .next t ∧
    t.k = blockOfHex 0x2b7e151628aed2a6abf7158809cf4f3c)

/-- The buffer port: `BufRead(a)` returns `MEM[a]` and changes nothing; `BufWrite(a, b)` sets `MEM[a]` and changes nothing else; both are
refused at `MEM_BYTES` and above; and two writes to different addresses may come in either order (R76). -/
def Obligations.BufferPortMovesOneByte : Prop :=
  (∀ (m : State) (rest : List HostAction) (a : Nat) (b : Byte), a < m.memBytes →
    (m.script = .bufRead a :: rest →
      step m = .next { m with script := rest, observed := m.observed ++ [.buffer (Memory.read m.mem a)] }) ∧
    (m.script = .bufWrite a b :: rest →
      ∃ mem, step m = .next { m with script := rest, mem := mem } ∧ Memory.read mem a = b ∧
        ∀ c, c ≠ a → Memory.read mem c = Memory.read m.mem c)) ∧
  (∀ (m : State) (rest : List HostAction) (a : Nat) (b : Byte), m.memBytes ≤ a →
    (m.script = .bufRead a :: rest → step m = .refused (.bufferAddress a)) ∧
    (m.script = .bufWrite a b :: rest → step m = .refused (.bufferAddress a))) ∧
  (∀ (m : State) (a c : Nat) (x y : Byte), m.Inv → a < m.memBytes → c < m.memBytes → a ≠ c →
    ∃ t, Sys2Proof.core.run 2 { m with script := [.bufWrite a x, .bufWrite c y] } = .next t ∧
      Sys2Proof.core.run 2 { m with script := [.bufWrite c y, .bufWrite a x] } = .next t)

/-- A host action is refused exactly when it is malformed: a register access at an offset that is not listed or not 32 bits wide, or a
buffer access at `MEM_BYTES` or above (R261). -/
def Obligations.MalformedActionsAreRefused : Prop :=
  ∀ (m : State) (a : HostAction) (rest : List HostAction), m.script = a :: rest →
    ((∃ r, step m = .refused r) ↔ malformed m.memBytes a = true)

/-- Every command answers a next state in every state, no step faults, and the only step without a next state is the refusal of a
malformed host action (R250). -/
def Obligations.OnlyMalformedActionsHaveNoNextState : Prop :=
  (∀ (i : Instr) (m : State), ∃ t, exec i m = .next t) ∧
  (∀ (m : State) (f : Fault), step m ≠ .fault f) ∧
  (∀ m : State, (∃ t, step m = .next t) ∨
    ∃ a rest r, m.script = a :: rest ∧ malformed m.memBytes a = true ∧ step m = .refused r)

/-- With no host action left, a step keeps the whole state: the model's choice of log entry 5, from R260 "between commands the core is
idle and keeps all its state". -/
def Obligations.IdleCoreKeepsItsState : Prop :=
  ∀ m : State, m.script = [] → step m = .next m

/-- A `RESET` action zeroes the control registers and leaves the image's values in `K`, `RK`, `S`, `CV`, `NONCE` and `MEM`, and every
content of the buffer space is some image's (R39; the image is the model's form of the unspecified values, log entry 4). -/
def Obligations.ResetActionZeroesControlRegisters : Prop :=
  ∀ (m : State) (image : ResetImage) (rest : List HostAction), m.script = .reset image :: rest →
    ∃ t, step m = .next t ∧
      t.cmd = 0#32 ∧ t.status = .ok ∧ t.src = 0#32 ∧ t.dst = 0#32 ∧ t.len = 0#32 ∧ t.rlen = 0#32 ∧ t.fr = 0#8 ∧
      t.rnd = 0#4 ∧
      t.k = image.k ∧ t.rk = image.rk ∧ t.s = image.s ∧ t.cv = image.cv ∧ t.nonce = image.nonce ∧
      (Memory.wf image.mem = true → Memory.within m.memBytes image.mem = true → t.mem = image.mem) ∧
      t.memLast = m.memLast ∧ t.script = rest ∧ t.observed = m.observed

/-- After reset the control registers hold the values of R39. The other registers and `MEM` hold values the model names (log entry 3),
of which nothing is stated here. -/
def Obligations.ResetStateHasZeroControlRegisters : Prop :=
  State.reset.cmd = 0#32 ∧ State.reset.status = .ok ∧ State.reset.src = 0#32 ∧ State.reset.dst = 0#32 ∧
  State.reset.len = 0#32 ∧ State.reset.rlen = 0#32 ∧ State.reset.fr = 0#8 ∧ State.reset.rnd = 0#4

/-- The pseudo-instructions expand to the command words and host actions of the rule, the words of `LDBLK` and `LDNONCE` packed from four
bytes each with the lowest index in the lowest bits, and running them loads what they name (R98). -/
def Obligations.PseudoInstructionsExpand : Prop :=
  (scriptEcbenc = wr .cmd 0x00000040#32 ∧ scriptEcbdec = wr .cmd 0x00000140#32 ∧ scriptCbcenc = wr .cmd 0x00000041#32 ∧
    scriptCbcdec = wr .cmd 0x00000142#32 ∧ scriptCtrx = wr .cmd 0x00000043#32) ∧
  (∀ (reg : Fin 4 → Reg) (x : Block), ∃ w : Fin 4 → Word,
    scriptLdblk reg x = [wr (reg 0) (w 0), wr (reg 1) (w 1), wr (reg 2) (w 2), wr (reg 3) (w 3)] ∧
    ∀ j, (w j).toNat = laneValue (blockQuad x j)) ∧
  (∀ n : Nonce, ∃ w : Fin 2 → Word, scriptLdnonce n = [wr (.nonce 0) (w 0), wr (.nonce 1) (w 1)] ∧
    ∀ j, (w j).toNat = laneValue (nonceQuad n j)) ∧
  (∀ (addr : Nat) (bs : List Byte), (scriptWrbuf addr bs).length = bs.length ∧
    ∀ (i : Nat) (b : Byte), bs[i]? = some b → (scriptWrbuf addr bs)[i]? = some (HostAction.bufWrite (addr + i) b)) ∧
  (∀ s d l : Word, scriptSetbuf s d l = [wr .src s, wr .dst d, wr .len l]) ∧
  (∀ (m : State) (x : Block) (rest : List HostAction),
    (m.script = scriptLdblk .k x ++ rest → Sys2Proof.core.run 4 m = .next { m with script := rest, k := x }) ∧
    (m.script = scriptLdblk .rk x ++ rest → Sys2Proof.core.run 4 m = .next { m with script := rest, rk := x }) ∧
    (m.script = scriptLdblk .s x ++ rest → Sys2Proof.core.run 4 m = .next { m with script := rest, s := x }) ∧
    (m.script = scriptLdblk .cv x ++ rest → Sys2Proof.core.run 4 m = .next { m with script := rest, cv := x })) ∧
  (∀ (m : State) (n : Nonce) (rest : List HostAction), m.script = scriptLdnonce n ++ rest →
    Sys2Proof.core.run 2 m = .next { m with script := rest, nonce := n }) ∧
  (∀ (m : State) (addr : Nat) (bs : List Byte) (rest : List HostAction), addr + bs.length ≤ m.memBytes →
    m.script = scriptWrbuf addr bs ++ rest →
    Sys2Proof.core.run bs.length m = .next { m with script := rest, mem := Memory.writeBytes m.mem addr bs }) ∧
  (∀ (m : State) (s d l : Word) (rest : List HostAction), m.script = scriptSetbuf s d l ++ rest →
    Sys2Proof.core.run 3 m = .next { m with script := rest, src := s, dst := d, len := l })

/-! ### Invariants and whole-machine rules -/

/-- Every step keeps memory in canonical form and within the buffer space (R60, R66). -/
def Obligations.StepKeepsMemoryCanonical : Prop :=
  ∀ m t : State, m.Inv → step m = .next t → t.Inv

/-- Memory is in canonical form and within the buffer space at reset. -/
def Obligations.ResetMemoryIsCanonical : Prop := State.reset.Inv

/-- Two memories in canonical form that read the same at every address are the same list. -/
def Obligations.EqualReadsMeanEqualMemories : Prop :=
  ∀ x y : Memory, Memory.wf x = true → Memory.wf y = true → (∀ a, Memory.read x a = Memory.read y a) → x = y

/-- A step performs at most one host action, the first of the script (R11, R286): it takes that action off, and adds one observation when
it is a read and none otherwise; with an empty script it is the idle step. No step changes the size of the buffer space. The script, the
observations and the size are the model's own fields and no state of the core (R40): the form is the model's choice, log entries 1, 2
and 5. -/
def Obligations.StepPerformsOneHostAction : Prop :=
  ∀ m t : State, step m = .next t →
    t.memLast = m.memLast ∧ t.script = m.script.tail ∧
    ((∃ off bits rest, m.script = .regRead off bits :: rest ∧ ∃ v, t.observed = m.observed ++ [Observation.register v]) ∨
     (∃ a rest, m.script = .bufRead a :: rest ∧ ∃ b, t.observed = m.observed ++ [Observation.buffer b]) ∨
     ((∀ off bits rest, m.script ≠ .regRead off bits :: rest) ∧ (∀ a rest, m.script ≠ .bufRead a :: rest) ∧
       t.observed = m.observed))

/-- No command writes `K`, `CV`, `NONCE`, `SRC`, `DST` or `LEN` (R21, R25, R26, R27) or `CMD`, which the host's write has set before the
command runs (R31, R42, R95). Nor does a command change the size of the buffer space, the script or the observations, which are the
model's own fields and no state of the core (R40; the model's choice, log entries 1 and 2). -/
def Obligations.CommandsLeaveHostRegistersAlone : Prop :=
  ∀ (i : Instr) (m t : State), exec i m = .next t → SameHostRegs m t ∧ SameRun m t

/-- The write columns of the table of R42, by opcode: only the field and single-byte S-box commands change `FR`, only the block commands
change `S`, only the schedule commands change `RK` or `RND`, only the buffer commands change `RLEN`, and only the buffer commands
but `UNPAD` change `MEM`, and that only in the `RLEN` bytes at `DST`. -/
def Obligations.CommandsWriteOnlyTheirColumns : Prop :=
  ∀ (i : Instr) (m t : State), exec i m = .next t →
    (t.fr ≠ m.fr → opcodeOf i ∈ [0x01#8, 0x02#8, 0x03#8, 0x10#8, 0x11#8]) ∧
    (t.s ≠ m.s → opcodeOf i ∈ [0x12#8, 0x13#8, 0x14#8, 0x15#8, 0x16#8, 0x17#8, 0x18#8, 0x30#8, 0x31#8]) ∧
    (t.rk ≠ m.rk ∨ t.rnd ≠ m.rnd → opcodeOf i ∈ [0x20#8, 0x21#8, 0x22#8]) ∧
    (t.rlen ≠ m.rlen → opcodeOf i ∈ [0x40#8, 0x41#8, 0x42#8, 0x43#8, 0x50#8, 0x51#8]) ∧
    (∀ a, Memory.read t.mem a ≠ Memory.read m.mem a →
      opcodeOf i ∈ [0x40#8, 0x41#8, 0x42#8, 0x43#8, 0x50#8] ∧ t.status = .ok ∧
      m.dst.toNat ≤ a ∧ a < m.dst.toNat + t.rlen.toNat)

/-- `STATUS` reads as the number of its code, 0 to 5, with zero above; it holds the outcome of the most recent command, for only a write to
`CMD` and a reset change it, a host write does not, and no command's result depends on it (R30). -/
def Obligations.StatusHoldsTheLastOutcome : Prop :=
  (∀ m : State, ∃ n, n ≤ 5 ∧ readReg .status m = BitVec.ofNat 32 n ∧
    [StatusCode.ok, .errLen, .errPad, .errCmd, .errRange, .errRnd][n]? = some m.status) ∧
  (∀ m t : State, step m = .next t → (∀ w rest, m.script ≠ wr .cmd w :: rest) → (∀ image rest, m.script ≠ .reset image :: rest) →
    t.status = m.status) ∧
  (∀ (m : State) (rest : List HostAction) (v : Word), m.script = wr .status v :: rest → step m = .next { m with script := rest }) ∧
  (∀ (i : Instr) (m : State) (c : StatusCode), exec i { m with status := c } = exec i m)

/-- The fifteen commands that cannot fail once decoded always end with `STATUS.CODE = OK` (R252). -/
def Obligations.InfallibleCommandsEndOk : Prop :=
  ∀ (i : Instr) (m : State),
    opcodeOf i ∈ [0x01#8, 0x02#8, 0x03#8, 0x10#8, 0x11#8, 0x12#8, 0x13#8, 0x14#8, 0x15#8, 0x16#8, 0x17#8, 0x18#8,
      0x20#8, 0x30#8, 0x31#8] →
    ∃ t, exec i m = .next t ∧ t.status = .ok

/-- A failed command writes `STATUS.CODE`, sets `RLEN` to 0 when the code is `ERR_LEN`, `ERR_RANGE` or `ERR_PAD`, and changes nothing
else; a reserved word changes `CMD` and `STATUS` alone (R254). -/
def Obligations.FailedCommandChangesNothingElse : Prop :=
  (∀ (i : Instr) (m t : State), exec i m = .next t → t.status ≠ .ok →
    t = { m with
      status := t.status
      rlen := if t.status = .errLen ∨ t.status = .errRange ∨ t.status = .errPad then 0#32 else m.rlen }) ∧
  (∀ (w : Word) (m : State) (e : Reserved), decode w = .error e →
    runCommand w m = .next { m with cmd := w, status := .errCmd })

/-- One code for each command, the first that applies: `ERR_CMD` from the word alone; then `ERR_LEN`; then `ERR_RANGE`; then `ERR_PAD`;
`ERR_RND` from the schedule commands alone (R253, with the causes of R251). -/
def Obligations.FirstFailingCheckDecidesTheCode : Prop :=
  (∀ (w : Word) (m : State) (e : Reserved), decode w = .error e →
    ∃ t, runCommand w m = .next t ∧ t.status = .errCmd) ∧
  (∀ (i : Instr) (m t : State), wellFormed i = true → exec i m = .next t →
    t.status ≠ .errCmd ∧
    (t.status = .errLen ↔ needs16 i = true ∧ m.len.toNat % 16 ≠ 0) ∧
    (t.status = .errRange ↔ ¬(needs16 i = true ∧ m.len.toNat % 16 ≠ 0) ∧ ¬buffersInRange m i) ∧
    (t.status = .errPad ↔ i = .unpad ∧ buffersInRange m i ∧
      unpad (Memory.readBytes m.mem m.src.toNat m.len.toNat) = none) ∧
    (t.status = .errRnd ↔ (i = .ksnext ∧ 10 ≤ m.rnd.toNat) ∨ (i = .ksprev ∧ (m.rnd.toNat = 0 ∨ 10 < m.rnd.toNat))))

/-! ### Field arithmetic -/

/-- `GFMUL`, `GFPOW` and `GFINV`: their words and the reserved words beside them, the result in `FR`, `STATUS.CODE <- OK` and nothing else
written, and the corner cases (R128, R129, R130). -/
def Obligations.FieldCommandsWriteFr : Prop :=
  (∀ a b : Byte, decode (0#8 ++ b ++ a ++ 0x01#8) = .ok (.gfmul a b) ∧ decode (0#8 ++ b ++ a ++ 0x02#8) = .ok (.gfpow a b) ∧
    decode (0#16 ++ a ++ 0x03#8) = .ok (.gfinv a)) ∧
  (∀ w : Word, (w.extractLsb' 0 8 = 0x01#8 ∨ w.extractLsb' 0 8 = 0x02#8) → w.extractLsb' 24 8 ≠ 0#8 →
    decode w = .error .mustBeZero) ∧
  (∀ (a b : Byte) (m : State),
    exec (.gfmul a b) m = .next { m with fr := gfMul a b, status := .ok } ∧
    exec (.gfpow a b) m = .next { m with fr := gfPow a b.toNat, status := .ok } ∧
    exec (.gfinv a) m = .next { m with fr := gfInv a, status := .ok }) ∧
  (∀ a b : Byte, gfMul 0#8 b = 0#8 ∧ gfMul a 0#8 = 0#8 ∧ gfMul a 1#8 = a ∧ gfMul a b = gfMul b a) ∧
  (∀ a : Byte, gfPow a 0 = 1#8 ∧ gfPow a 1 = a ∧ (a ≠ 0#8 → gfPow a 255 = 1#8)) ∧
  (∀ n : Byte, gfPow 1#8 n.toNat = 1#8 ∧ (n ≠ 0#8 → gfPow 0#8 n.toNat = 0#8)) ∧
  (gfInv 0#8 = 0#8 ∧ gfInv 1#8 = 1#8 ∧ ∀ a : Byte, gfInv a = gfPow a 254) ∧
  (decode 0x00835701#32 = .ok (.gfmul 0x57#8 0x83#8) ∧ gfMul 0x57#8 0x83#8 = 0xC1#8) ∧
  (decode 0x00FE5302#32 = .ok (.gfpow 0x53#8 254#8) ∧ gfPow 0x53#8 254 = 0xCA#8) ∧
  (decode 0x00005303#32 = .ok (.gfinv 0x53#8) ∧ gfInv 0x53#8 = 0xCA#8)

/-- The laws of the arithmetic (R127). -/
def Obligations.FieldLaws : Prop :=
  (∀ a b c : Byte, gfMul a b = gfMul b a ∧ gfMul a (gfMul b c) = gfMul (gfMul a b) c ∧
    gfMul a (b ^^^ c) = gfMul a b ^^^ gfMul a c) ∧
  (∀ a : Byte, gfMul a 1#8 = a ∧ gfMul a 0#8 = 0#8 ∧ gfMul a 2#8 = gfXtime a ∧ gfMul a 3#8 = gfXtime a ^^^ a) ∧
  (∀ a b : Byte, gfMul a b = 0#8 → a = 0#8 ∨ b = 0#8) ∧
  (∀ a : Byte, a ≠ 0#8 → gfPow a 255 = 1#8 ∧ gfMul a (gfInv a) = 1#8 ∧ gfInv (gfInv a) = a) ∧
  (∀ (a : Byte) (m n : Nat), gfPow a (m + n) = gfMul (gfPow a m) (gfPow a n))

/-- Multiplication is the product of the two polynomials over GF(2) modulo `x^8 + x^4 + x^3 + x + 1`, addition their sum (R120, R121,
R123): the definition by repeated doubling computes the field product. -/
def Obligations.MultiplicationIsThePolynomialProduct : Prop :=
  ∀ poly : Byte → Polynomial (ZMod 2),
    (∀ a, poly a = ∑ i ∈ Finset.range 8, if a.getLsbD i then Polynomial.X ^ i else 0) →
    ∀ a b : Byte,
      poly (gfAdd a b) = poly a + poly b ∧
      poly (gfMul a b) = (poly a * poly b) %ₘ
        (Polynomial.X ^ 8 + Polynomial.X ^ 4 + Polynomial.X ^ 3 + Polynomial.X + 1)

/-- `gf_pow(a, n)` is the product of `n` copies of `a`, and 0x01 for `n = 0`, also for `a = 0` (R124). -/
def Obligations.PowerIsTheRepeatedProduct : Prop :=
  (∀ (a : Byte) (n : Nat), gfPow a 0 = 1#8 ∧ gfPow a (n + 1) = gfMul (gfPow a n) a) ∧
  (∀ n : Nat, 1 ≤ n → gfPow 0#8 n = 0#8) ∧
  gfPow 0x02#8 8 = 0x1B#8 ∧ gfPow 0x02#8 9 = 0x36#8 ∧ gfPow 0x03#8 255 = 0x01#8 ∧ gfPow 0x53#8 2 = 0xB5#8

/-- The constant tables equal the functions at every index, and the multiplier 3 needs none (R126); so do the S-box table and the inverse
S-box table, whose entries are printed beside them. -/
def Obligations.ConstantTablesEqualTheFunctions : Prop :=
  ∀ x : Byte, tableAt mul2Rows x = gfMul 2#8 x ∧ tableAt mul9Rows x = gfMul 9#8 x ∧ tableAt mul11Rows x = gfMul 11#8 x ∧
    tableAt mul13Rows x = gfMul 13#8 x ∧ tableAt mul14Rows x = gfMul 14#8 x ∧ tableAt invRows x = gfInv x ∧
    gfMul 3#8 x = tableAt mul2Rows x ^^^ x ∧
    tableAt sboxRows x = sbox x ∧ tableAt invSboxRows x = invSbox x

/-! ### Round transforms -/

/-- `SBOXB` and `ISBOXB`: their words, the result in `FR`, `STATUS.CODE <- OK` and nothing else written, and the corner cases
(R153, R154). -/
def Obligations.SboxCommandsWriteFr : Prop :=
  (∀ a : Byte, decode (0#16 ++ a ++ 0x10#8) = .ok (.sboxb a) ∧ decode (0#16 ++ a ++ 0x11#8) = .ok (.isboxb a)) ∧
  (∀ (a : Byte) (m : State),
    exec (.sboxb a) m = .next { m with fr := sbox a, status := .ok } ∧
    exec (.isboxb a) m = .next { m with fr := invSbox a, status := .ok }) ∧
  (sbox 0#8 = 0x63#8 ∧ ∀ a : Byte, sbox a ≠ a) ∧ (invSbox 0x63#8 = 0x00#8 ∧ invSbox 0x00#8 = 0x52#8) ∧
  (decode 0x00005310#32 = .ok (.sboxb 0x53#8) ∧ sbox 0x53#8 = 0xED#8) ∧
  (decode 0x0000ED11#32 = .ok (.isboxb 0xED#8) ∧ invSbox 0xED#8 = 0x53#8)

/-- `SUBB` and `ISUBB`: every byte of `S` substituted, `STATUS.CODE <- OK` and nothing else written; each undoes the other (R155, R156). -/
def Obligations.SubstituteCommands : Prop :=
  (decode 0x00000012#32 = .ok .subb ∧ decode 0x00000013#32 = .ok .isubb) ∧
  (∀ m : State,
    (∃ t, exec .subb m = .next t ∧ (∀ i, blockByte t.s i = sbox (blockByte m.s i)) ∧ t.status = .ok ∧ FrameS m t ∧
      ∃ u, exec .isubb t = .next u ∧ u.s = m.s) ∧
    (∃ t, exec .isubb m = .next t ∧ (∀ i, blockByte t.s i = invSbox (blockByte m.s i)) ∧ t.status = .ok ∧ FrameS m t ∧
      ∃ u, exec .subb t = .next u ∧ u.s = m.s)) ∧
  subBytes (blockOfHex 0) = blockOfHex 0x63636363636363636363636363636363 ∧
  subBytes (blockOfHex 0x00112233445566778899aabbccddeeff) = blockOfHex 0x638293c31bfc33f5c4eeacea4bc12816 ∧
  invSubBytes (blockOfHex 0x00112233445566778899aabbccddeeff) = blockOfHex 0x52e3946686edd30297f962fe27c9997d

/-- `SHROW` and `ISHROW`: row `r` of `S` rotated left, or right, by `r`; `STATUS.CODE <- OK` and nothing else written; `ISHROW` undoes
`SHROW`, and four `SHROW` restore `S` (R157, R158). -/
def Obligations.RowShiftCommands : Prop :=
  (decode 0x00000014#32 = .ok .shrow ∧ decode 0x00000015#32 = .ok .ishrow) ∧
  (∀ m : State,
    (∃ t, exec .shrow m = .next t ∧
      (∀ r c : Fin 4, blockByte t.s ⟨r.val + 4 * c.val, by omega⟩ =
        blockByte m.s ⟨r.val + 4 * ((c.val + r.val) % 4), by omega⟩) ∧
      t.status = .ok ∧ FrameS m t ∧ ∃ u, exec .ishrow t = .next u ∧ u.s = m.s) ∧
    (∃ t, exec .ishrow m = .next t ∧
      (∀ r c : Fin 4, blockByte t.s ⟨r.val + 4 * c.val, by omega⟩ =
        blockByte m.s ⟨r.val + 4 * ((c.val + 4 - r.val) % 4), by omega⟩) ∧
      t.status = .ok ∧ FrameS m t)) ∧
  (∀ x : Block, shiftRows (shiftRows (shiftRows (shiftRows x))) = x) ∧
  (∀ b : Byte, shiftRows (blockOfFn fun _ => b) = blockOfFn fun _ => b) ∧
  shiftRows (blockOfHex 0x00112233445566778899aabbccddeeff) = blockOfHex 0x0055aaff4499ee3388dd2277cc1166bb ∧
  invShiftRows (blockOfHex 0x00112233445566778899aabbccddeeff) = blockOfHex 0x00ddaa774411eebb885522ffcc996633

/-- `MIXC` and `IMIXC`: every column of `S` transformed, `STATUS.CODE <- OK` and nothing else written; `IMIXC` undoes `MIXC`; a column
of four equal bytes is unchanged by both (R159, R160). -/
def Obligations.ColumnMixCommands : Prop :=
  (decode 0x00000016#32 = .ok .mixc ∧ decode 0x00000017#32 = .ok .imixc) ∧
  (∀ m : State,
    (∃ t, exec .mixc m = .next t ∧ (∀ c, blockQuad t.s c = mixColumn (blockQuad m.s c)) ∧ t.status = .ok ∧ FrameS m t ∧
      ∃ u, exec .imixc t = .next u ∧ u.s = m.s) ∧
    (∃ t, exec .imixc m = .next t ∧ (∀ c, blockQuad t.s c = invMixColumn (blockQuad m.s c)) ∧ t.status = .ok ∧ FrameS m t)) ∧
  (∀ b : Byte, mixColumn ⟨b, b, b, b⟩ = ⟨b, b, b, b⟩ ∧ invMixColumn ⟨b, b, b, b⟩ = ⟨b, b, b, b⟩) ∧
  mixColumns (blockOfHex 0) = blockOfHex 0 ∧
  mixColumns (blockOfHex 0x00112233445566778899aabbccddeeff) = blockOfHex 0x2277005566334411aaff88ddeebbcc99 ∧
  invMixColumns (blockOfHex 0x2277005566334411aaff88ddeebbcc99) = blockOfHex 0x00112233445566778899aabbccddeeff

/-- `ADDRK`: every byte of `S` combined with the byte of `RK`, whatever `RND` holds; `STATUS.CODE <- OK` and nothing else written; two in
a row restore `S`, and an all-zero `RK` leaves it (R161). -/
def Obligations.AddRoundKeyCommand : Prop :=
  decode 0x00000018#32 = .ok .addrk ∧
  (∀ m : State, ∃ t, exec .addrk m = .next t ∧ (∀ i, blockByte t.s i = blockByte m.s i ^^^ blockByte m.rk i) ∧
    t.status = .ok ∧ FrameS m t ∧ (m.rk = blockOfHex 0 → t.s = m.s) ∧ ∃ u, exec .addrk t = .next u ∧ u.s = m.s) ∧
  addRoundKey (blockOfHex 0x3243f6a8885a308d313198a2e0370734) (blockOfHex 0x2b7e151628aed2a6abf7158809cf4f3c) =
    blockOfHex 0x193de3bea0f4e22b9ac68d2ae9f84808

/-- The inverse pairs: each round transform and its inverse undo each other, and substitution commutes with the row shift (R152). -/
def Obligations.RoundTransformsAreInversePairs : Prop :=
  ∀ x : Block,
    (invSubBytes (subBytes x) = x ∧ subBytes (invSubBytes x) = x) ∧
    (invShiftRows (shiftRows x) = x ∧ shiftRows (invShiftRows x) = x) ∧
    (invMixColumns (mixColumns x) = x ∧ mixColumns (invMixColumns x) = x) ∧
    subBytes (shiftRows x) = shiftRows (subBytes x) ∧ invSubBytes (invShiftRows x) = invShiftRows (invSubBytes x)

/-! ### Key schedule -/

/-- The round constants are powers of two in the field and exist for 1..10 alone (R171), the word function rotates, substitutes and adds the
constant (R172), and the forward and backward steps chain the words, in their ranges alone (R173, R174). -/
def Obligations.KeyStepsChainTheWords : Prop :=
  (∀ r : Nat, (1 ≤ r ∧ r ≤ 10 → rcon r = some (gfPow 2#8 (r - 1))) ∧ (r = 0 ∨ 10 < r → rcon r = none)) ∧
  [1, 2, 3, 4, 5, 6, 7, 8, 9, 10].map rcon =
    [some 0x01#8, some 0x02#8, some 0x04#8, some 0x08#8, some 0x10#8, some 0x20#8, some 0x40#8, some 0x80#8, some 0x1B#8, some 0x36#8] ∧
  (∀ (c : Byte) (w : Quad), ksG c w = ⟨sbox w.b1 ^^^ c, sbox w.b2, sbox w.b3, sbox w.b0⟩) ∧
  (∀ (v : Block) (r : Nat), (nextRoundKey v r).isSome = true ↔ r ≤ 9) ∧
  (∀ (w : Block) (r : Nat), (previousRoundKey w r).isSome = true ↔ 1 ≤ r ∧ r ≤ 10) ∧
  (∀ (v w : Block) (r : Nat) (c : Byte), rcon (r + 1) = some c → nextRoundKey v r = some w →
    w.q0 = v.q0.xor (ksG c v.q3) ∧ w.q1 = v.q1.xor w.q0 ∧ w.q2 = v.q2.xor w.q1 ∧ w.q3 = v.q3.xor w.q2) ∧
  (∀ (v w : Block) (r : Nat) (c : Byte), rcon r = some c → previousRoundKey w r = some v →
    v.q3 = w.q3.xor w.q2 ∧ v.q2 = w.q2.xor w.q1 ∧ v.q1 = w.q1.xor w.q0 ∧ v.q0 = w.q0.xor (ksG c v.q3)) ∧
  nextRoundKey (blockOfHex 0x2b7e151628aed2a6abf7158809cf4f3c) 0 = some (blockOfHex 0xa0fafe1788542cb123a339392a6c7605) ∧
  previousRoundKey (blockOfHex 0xd014f9a8c9ee2589e13f0cc8b6630ca6) 10 =
    some (blockOfHex 0xac7766f319fadc2128d12941575c006e)

/-- The two steps are inverses from every 16-byte value, at every round number in range (R175). -/
def Obligations.KeyStepsAreInverse : Prop :=
  (∀ (x : Block) (r : Nat), r ≤ 9 →
    (nextRoundKey x r).bind (fun y => previousRoundKey y (r + 1)) = some x) ∧
  (∀ (x : Block) (r : Nat), 1 ≤ r → r ≤ 10 →
    (previousRoundKey x r).bind (fun y => nextRoundKey y (r - 1)) = some x)

/-- `KSLOAD`: `RK <- K`, `RND <- 0`, `STATUS.CODE <- OK`, and nothing else written (R177). -/
def Obligations.KsloadStartsAtTheKey : Prop :=
  decode 0x00000020#32 = .ok .ksload ∧
  ∀ m : State, exec .ksload m = .next { m with rk := m.k, rnd := 0#4, status := .ok }

/-- `KSNEXT`: below round 10 one round key forward and `RND + 1`, else `ERR_RND` with `RK` and `RND` unchanged; nothing else written (R178). -/
def Obligations.KsnextStepsForward : Prop :=
  decode 0x00000021#32 = .ok .ksnext ∧
  (∀ m : State, m.rnd.toNat < 10 →
    ∃ t, exec .ksnext m = .next t ∧ nextRoundKey m.rk m.rnd.toNat = some t.rk ∧ t.rnd.toNat = m.rnd.toNat + 1 ∧
      t.status = .ok ∧ FrameSchedule m t) ∧
  (∀ m : State, 10 ≤ m.rnd.toNat → exec .ksnext m = .next { m with status := .errRnd }) ∧
  nextRoundKey (blockOfHex 0x2b7e151628aed2a6abf7158809cf4f3c) 0 = some (blockOfHex 0xa0fafe1788542cb123a339392a6c7605)

/-- `KSPREV`: in rounds 1..10 one round key backward and `RND - 1`, else `ERR_RND` with `RK` and `RND` unchanged; nothing else written;
`KSNEXT` then `KSPREV`, and `KSPREV` then `KSNEXT`, restore both registers whenever neither fails (R179). -/
def Obligations.KsprevStepsBackward : Prop :=
  decode 0x00000022#32 = .ok .ksprev ∧
  (∀ m : State, 1 ≤ m.rnd.toNat → m.rnd.toNat ≤ 10 →
    ∃ t, exec .ksprev m = .next t ∧ previousRoundKey m.rk m.rnd.toNat = some t.rk ∧ t.rnd.toNat + 1 = m.rnd.toNat ∧
      t.status = .ok ∧ FrameSchedule m t) ∧
  (∀ m : State, m.rnd.toNat = 0 ∨ 10 < m.rnd.toNat → exec .ksprev m = .next { m with status := .errRnd }) ∧
  (∀ m t u : State, exec .ksnext m = .next t → t.status = .ok → exec .ksprev t = .next u →
    u.rk = m.rk ∧ u.rnd = m.rnd) ∧
  (∀ m t u : State, exec .ksprev m = .next t → t.status = .ok → exec .ksnext t = .next u →
    u.rk = m.rk ∧ u.rnd = m.rnd) ∧
  previousRoundKey (blockOfHex 0xd014f9a8c9ee2589e13f0cc8b6630ca6) 10 =
    some (blockOfHex 0xac7766f319fadc2128d12941575c006e)

/-! ### Block cipher -/

/-- Encryption: whiten with round key 0, nine full rounds (substitute, shift, mix, whiten) and one final round without mixing, round `r`
whitening with `round_key(k, r)`; and the rule's example (R186). -/
def Obligations.EncryptionWhitensWithTheRoundKeys : Prop :=
  (∀ (p k : Block) (rks : Nat → Block), (∀ r, r ≤ 10 → roundKey k r = some (rks r)) →
    encryptBlock p k =
      addRoundKey (shiftRows (subBytes
        ((List.range 9).foldl (fun s i => addRoundKey (mixColumns (shiftRows (subBytes s))) (rks (i + 1)))
          (addRoundKey p (rks 0))))) (rks 10)) ∧
  (∀ (k : Block) (r : Nat), (roundKey k r).isSome = true ↔ r ≤ 10) ∧
  encryptBlock (blockOfHex 0x3243f6a8885a308d313198a2e0370734) (blockOfHex 0x2b7e151628aed2a6abf7158809cf4f3c) =
    blockOfHex 0x3925841d02dc09fbdc118597196a0b32

/-- Decryption: the forward schedule run to round key 10, then the steps of encryption undone in reverse order with the round keys 10 down
to 0; after the last backward step the schedule holds the key again; and the rule's example (R187). -/
def Obligations.DecryptionUndoesTheRoundsInReverse : Prop :=
  (∀ (c k : Block) (rks : Nat → Block), (∀ r, r ≤ 10 → roundKey k r = some (rks r)) →
    lastRoundKey k = rks 10 ∧
    decryptBlock c k =
      addRoundKey
        ([9, 8, 7, 6, 5, 4, 3, 2, 1].foldl
          (fun s r => invSubBytes (invShiftRows (invMixColumns (addRoundKey s (rks r)))))
          (invSubBytes (invShiftRows (addRoundKey c (rks 10))))) (rks 0) ∧
    keyBackward undoLastConstant (undoRoundConstants.foldl decRound (decFirst c (lastRoundKey k))).ks = k) ∧
  decryptBlock (blockOfHex 0x3925841d02dc09fbdc118597196a0b32) (blockOfHex 0x2b7e151628aed2a6abf7158809cf4f3c) =
    blockOfHex 0x3243f6a8885a308d313198a2e0370734

/-- For every block and key, decryption undoes encryption and encryption undoes decryption, so each is a permutation of the blocks
(R185, R188). -/
def Obligations.CipherRoundTrip : Prop :=
  ∀ k : Block,
    (∀ p, decryptBlock (encryptBlock p k) k = p) ∧ (∀ c, encryptBlock (decryptBlock c k) k = c) ∧
    Function.Bijective (fun p => encryptBlock p k) ∧ Function.Bijective (fun c => decryptBlock c k)

/-- `ENCBLK` and `DECBLK`: `S` encrypted or decrypted under `K`, whatever `RK` and `RND` hold; `STATUS.CODE <- OK` and nothing else written;
each undoes the other; and the corner cases and examples (R190, R191). -/
def Obligations.BlockCipherCommands : Prop :=
  (decode 0x00000030#32 = .ok .encblk ∧ decode 0x00000031#32 = .ok .decblk) ∧
  (∀ m : State,
    exec .encblk m = .next { m with s := encryptBlock m.s m.k, status := .ok } ∧
    exec .decblk m = .next { m with s := decryptBlock m.s m.k, status := .ok }) ∧
  (∀ m t u : State, exec .encblk m = .next t → exec .decblk t = .next u → u.s = m.s) ∧
  (∀ m t u : State, exec .decblk m = .next t → exec .encblk t = .next u → u.s = m.s) ∧
  encryptBlock (blockOfHex 0) (blockOfHex 0) = blockOfHex 0x66e94bd4ef8a2c3b884cfa59ca342b2e ∧
  decryptBlock (blockOfHex 0) (blockOfHex 0) = blockOfHex 0x140f0f1011b5223d79587717ffd9ec3a ∧
  encryptBlock (blockOfHex 0x00112233445566778899aabbccddeeff) (blockOfHex 0x000102030405060708090a0b0c0d0e0f) =
    blockOfHex 0x69c4e0d86a7b0430d8cdb78070b4c55a ∧
  decryptBlock (blockOfHex 0x69c4e0d86a7b0430d8cdb78070b4c55a) (blockOfHex 0x000102030405060708090a0b0c0d0e0f) =
    blockOfHex 0x00112233445566778899aabbccddeeff

/-! ### Modes of operation -/

/-- `ECB.dir`: with a length that is a multiple of 16 and both buffers in range, block `i` at `DST` is the transform of block `i` of the
original input, however the buffers overlap, `RLEN <- LEN`, `STATUS.CODE <- OK`, and nothing else is written; else it fails; the transform
is encryption under `K` for `ECB.F` and decryption under `K` for `ECB.I`; and the rule's example (R208). -/
def Obligations.EcbTransformsEachBlock : Prop :=
  (decode 0x00000040#32 = .ok (.ecb .forward) ∧ decode 0x00000140#32 = .ok (.ecb .inverse)) ∧
  (∀ (d : Dir) (m : State),
    (m.len.toNat % 16 ≠ 0 → exec (.ecb d) m = .next { m with status := .errLen, rlen := 0#32 }) ∧
    (m.len.toNat % 16 = 0 → ¬buffersInRange m (.ecb d) →
      exec (.ecb d) m = .next { m with status := .errRange, rlen := 0#32 }) ∧
    (m.len.toNat % 16 = 0 → buffersInRange m (.ecb d) →
      ∃ t, exec (.ecb d) m = .next t ∧ t.status = .ok ∧ t.rlen = m.len ∧ FrameBuffer m t m.len.toNat ∧
        ∀ i, 16 * i < m.len.toNat →
          Memory.readBlock t.mem (m.dst.toNat + 16 * i) =
            blockTransform d m.k (Memory.readBlock m.mem (m.src.toNat + 16 * i)))) ∧
  (∀ k x : Block, blockTransform .forward k x = encryptBlock x k ∧ blockTransform .inverse k x = decryptBlock x k) ∧
  ecb (blockTransform .forward (blockOfHex 0x2b7e151628aed2a6abf7158809cf4f3c)) (bytesOfHex 16 0x6bc1bee22e409f96e93d7e117393172a) =
    some (bytesOfHex 16 0x3ad77bb40d7a3660a89ecaf32466ef97)

/-- `CBCE.dir`: block 0 at `DST` is the transform of input block 0 combined with `CV`, block `i + 1` the transform of input block `i + 1`
combined with output block `i`; `CV` is not updated; lengths, ranges and frame as for `ECB`; with `CV` zero output block 0 is the plain
transform of input block 0; and the command run again on the same input ends in the same state (R209). -/
def Obligations.CbcEncryptChainsOutputBlocks : Prop :=
  (decode 0x00000041#32 = .ok (.cbce .forward) ∧ decode 0x00000141#32 = .ok (.cbce .inverse)) ∧
  (∀ (d : Dir) (m : State),
    (m.len.toNat % 16 ≠ 0 → exec (.cbce d) m = .next { m with status := .errLen, rlen := 0#32 }) ∧
    (m.len.toNat % 16 = 0 → ¬buffersInRange m (.cbce d) →
      exec (.cbce d) m = .next { m with status := .errRange, rlen := 0#32 }) ∧
    (m.len.toNat % 16 = 0 → buffersInRange m (.cbce d) →
      ∃ t, exec (.cbce d) m = .next t ∧ t.status = .ok ∧ t.rlen = m.len ∧ FrameBuffer m t m.len.toNat ∧
        (0 < m.len.toNat →
          Memory.readBlock t.mem m.dst.toNat = blockTransform d m.k ((Memory.readBlock m.mem m.src.toNat).xor m.cv)) ∧
        ∀ i, 16 * (i + 1) < m.len.toNat →
          Memory.readBlock t.mem (m.dst.toNat + 16 * (i + 1)) =
            blockTransform d m.k ((Memory.readBlock m.mem (m.src.toNat + 16 * (i + 1))).xor
              (Memory.readBlock t.mem (m.dst.toNat + 16 * i))))) ∧
  (∀ (d : Dir) (m t : State), 0 < m.len.toNat → m.len.toNat % 16 = 0 → buffersInRange m (.cbce d) → m.cv = blockOfHex 0 →
    exec (.cbce d) m = .next t →
    Memory.readBlock t.mem m.dst.toNat = blockTransform d m.k (Memory.readBlock m.mem m.src.toNat)) ∧
  (∀ (d : Dir) (m t : State), exec (.cbce d) m = .next t → exec (.cbce d) { t with mem := m.mem } = .next t) ∧
  cbcEncrypt (blockTransform .forward (blockOfHex 0x2b7e151628aed2a6abf7158809cf4f3c))
      (blockOfHex 0x000102030405060708090a0b0c0d0e0f)
      (bytesOfHex 32 0x6bc1bee22e409f96e93d7e117393172aae2d8a571e03ac9c9eb76fac45af8e51) =
    some (bytesOfHex 32 0x7649abac8119b246cee98e9b12e9197d5086cb9b507219ee95db113a917678b2)

/-- `CBCD.dir`: block 0 at `DST` is the transform of input block 0, combined with `CV`, block `i + 1` the transform of input block `i + 1`,
combined with input block `i`, all taken from the original input; `CV` is unchanged; lengths, ranges and frame as for `ECB`; in place it
undoes `CBCE` with the other transform under the same `K` and `CV`; and another `CV` changes output block 0 alone (R210). -/
def Obligations.CbcDecryptChainsInputBlocks : Prop :=
  (decode 0x00000042#32 = .ok (.cbcd .forward) ∧ decode 0x00000142#32 = .ok (.cbcd .inverse)) ∧
  (∀ (d : Dir) (m : State),
    (m.len.toNat % 16 ≠ 0 → exec (.cbcd d) m = .next { m with status := .errLen, rlen := 0#32 }) ∧
    (m.len.toNat % 16 = 0 → ¬buffersInRange m (.cbcd d) →
      exec (.cbcd d) m = .next { m with status := .errRange, rlen := 0#32 }) ∧
    (m.len.toNat % 16 = 0 → buffersInRange m (.cbcd d) →
      ∃ t, exec (.cbcd d) m = .next t ∧ t.status = .ok ∧ t.rlen = m.len ∧ FrameBuffer m t m.len.toNat ∧
        (0 < m.len.toNat →
          Memory.readBlock t.mem m.dst.toNat = (blockTransform d m.k (Memory.readBlock m.mem m.src.toNat)).xor m.cv) ∧
        ∀ i, 16 * (i + 1) < m.len.toNat →
          Memory.readBlock t.mem (m.dst.toNat + 16 * (i + 1)) =
            (blockTransform d m.k (Memory.readBlock m.mem (m.src.toNat + 16 * (i + 1)))).xor
              (Memory.readBlock m.mem (m.src.toNat + 16 * i)))) ∧
  (∀ m t u : State, m.src = m.dst → m.len.toNat % 16 = 0 → buffersInRange m (.cbce .forward) →
    (exec (.cbce .forward) m = .next t → exec (.cbcd .inverse) t = .next u → SameMem m u) ∧
    (exec (.cbce .inverse) m = .next t → exec (.cbcd .forward) t = .next u → SameMem m u)) ∧
  (∀ (d : Dir) (m t u : State) (iv : Block), exec (.cbcd d) m = .next t → exec (.cbcd d) { m with cv := iv } = .next u →
    SameMemOutside t u m.dst.toNat 16) ∧
  cbcDecrypt (blockTransform .inverse (blockOfHex 0x2b7e151628aed2a6abf7158809cf4f3c))
      (blockOfHex 0x000102030405060708090a0b0c0d0e0f)
      (bytesOfHex 32 0x7649abac8119b246cee98e9b12e9197d5086cb9b507219ee95db113a917678b2) =
    some (bytesOfHex 32 0x6bc1bee22e409f96e93d7e117393172aae2d8a571e03ac9c9eb76fac45af8e51)

/-- `CTR.dir`: for a length of any size with both buffers in range, output byte `p` is the original input byte `p` combined with byte
`p mod 16` of the transform of the counter block of index `p div 16`; `NONCE` is unchanged; `RLEN <- LEN`; else `ERR_RANGE`; the same
command applied to its own output restores the input (R211). -/
def Obligations.CtrCombinesWithTheKeystream : Prop :=
  (decode 0x00000043#32 = .ok (.ctr .forward) ∧ decode 0x00000143#32 = .ok (.ctr .inverse)) ∧
  (∀ (d : Dir) (m : State),
    (¬buffersInRange m (.ctr d) → exec (.ctr d) m = .next { m with status := .errRange, rlen := 0#32 }) ∧
    (buffersInRange m (.ctr d) →
      ∃ t, exec (.ctr d) m = .next t ∧ t.status = .ok ∧ t.rlen = m.len ∧ FrameBuffer m t m.len.toNat ∧
        ∀ p, p < m.len.toNat →
          Memory.read t.mem (m.dst.toNat + p) =
            Memory.read m.mem (m.src.toNat + p) ^^^
              blockByte (blockTransform d m.k (counterBlock m.nonce (p / 16))) ⟨p % 16, by omega⟩)) ∧
  (∀ (d : Dir) (m t u : State), m.src = m.dst → buffersInRange m (.ctr d) →
    exec (.ctr d) m = .next t → exec (.ctr d) t = .next u → SameMem m u) ∧
  ctr (blockTransform .forward (blockOfHex 0x2b7e151628aed2a6abf7158809cf4f3c)) (nonceOfHex 0xf0f1f2f3f4f5f6f7)
      (bytesOfHex 20 0x6bc1bee22e409f96e93d7e117393172aae2d8a57) =
    bytesOfHex 20 0x67ee05547499f8bcf0c38324e8605c28018216a5

/-- The counter block: the nonce in bytes 0..7 in register order, the block index in bytes 8..15, most significant byte first, so that no
two indexes below `2^64` share a counter block; and the examples (R205). -/
def Obligations.CounterBlockIsNonceThenBigEndianIndex : Prop :=
  (∀ (n : Nonce) (j : Nat) (i : Fin 8),
    blockByte (counterBlock n j) ⟨i.val, by omega⟩ = nonceByte n i ∧
    (blockByte (counterBlock n j) ⟨8 + i.val, by omega⟩).toNat = (j / 2 ^ (8 * (7 - i.val))) % 256) ∧
  (∀ (n : Nonce) (j j' : Nat), j < 2 ^ 64 → j' < 2 ^ 64 → counterBlock n j = counterBlock n j' → j = j') ∧
  counterBlock (nonceOfHex 0xf0f1f2f3f4f5f6f7) 0 = blockOfHex 0xf0f1f2f3f4f5f6f70000000000000000 ∧
  counterBlock (nonceOfHex 0xf0f1f2f3f4f5f6f7) 1 = blockOfHex 0xf0f1f2f3f4f5f6f70000000000000001 ∧
  counterBlock (nonceOfHex 0xf0f1f2f3f4f5f6f7) 256 = blockOfHex 0xf0f1f2f3f4f5f6f70000000000000100

/-- The round trips of the modes: ECB and CBC of a length that is a multiple of 16, in both pairings of the transforms, and CTR, its own
inverse, of any length (R207). -/
def Obligations.ModesRoundTrip : Prop :=
  ∀ (k iv : Block) (n : Nonce) (input : List Byte),
    (input.length % 16 = 0 →
      (ecb (blockTransform .forward k) input).bind (ecb (blockTransform .inverse k)) = some input ∧
      (ecb (blockTransform .inverse k) input).bind (ecb (blockTransform .forward k)) = some input ∧
      (cbcEncrypt (blockTransform .forward k) iv input).bind (cbcDecrypt (blockTransform .inverse k) iv) = some input ∧
      (cbcEncrypt (blockTransform .inverse k) iv input).bind (cbcDecrypt (blockTransform .forward k) iv) = some input) ∧
    ctr (blockTransform .forward k) n (ctr (blockTransform .forward k) n input) = input ∧
    ctr (blockTransform .inverse k) n (ctr (blockTransform .inverse k) n input) = input

/-- What the mode commands leave alone, whether they succeed or fail: `K`, `CV`, `NONCE`, `S`, `RK`, `RND`, `SRC`, `DST`, `LEN`, `FR` and every
byte of `MEM` outside the `LEN` bytes at `DST` (R212). -/
def Obligations.ModeCommandsLeaveTheRestAlone : Prop :=
  ∀ (i : Instr) (d : Dir) (m t : State), i ∈ [Instr.ecb d, Instr.cbce d, Instr.cbcd d, Instr.ctr d] →
    exec i m = .next t → FrameBuffer m t m.len.toNat

/-! ### Padding -/

/-- `PAD bs`: with both buffers in range the input followed by `n = bs - (LEN mod bs)` bytes of value `n` stands at `DST`, `RLEN` is
`LEN + n`, `STATUS.CODE <- OK`, and nothing else is written; else `ERR_RANGE` (R233). -/
def Obligations.PadAppendsTheCount : Prop :=
  (∀ bs : Byte, bs ≠ 0#8 → decode (0#16 ++ bs ++ 0x50#8) = .ok (.pad bs)) ∧
  (∀ (bs : Byte) (m : State), bs ≠ 0#8 →
    (¬buffersInRange m (.pad bs) → exec (.pad bs) m = .next { m with status := .errRange, rlen := 0#32 }) ∧
    (buffersInRange m (.pad bs) →
      ∃ t n, n = bs.toNat - m.len.toNat % bs.toNat ∧ 1 ≤ n ∧ n ≤ bs.toNat ∧ (m.len.toNat + n) % bs.toNat = 0 ∧
        exec (.pad bs) m = .next t ∧ t.status = .ok ∧ t.rlen.toNat = m.len.toNat + n ∧
        FrameBuffer m t (m.len.toNat + n) ∧
        (∀ j, j < m.len.toNat → Memory.read t.mem (m.dst.toNat + j) = Memory.read m.mem (m.src.toNat + j)) ∧
        (∀ j, m.len.toNat ≤ j → j < m.len.toNat + n → Memory.read t.mem (m.dst.toNat + j) = BitVec.ofNat 8 n))) ∧
  pad (bytesOfHex 5 0x0102030405) 16 = some (bytesOfHex 16 0x01020304050b0b0b0b0b0b0b0b0b0b0b)

/-- `UNPAD`: out of range it fails with `ERR_RANGE`; in range it ends with `OK` and `RLEN = LEN - n` when the last byte `n` is not 0, `LEN`
is at least `n` and the last `n` bytes are `n`, and with `ERR_PAD` in every other case; `MEM` is not written (R234). -/
def Obligations.UnpadAcceptsExactlyValidPadding : Prop :=
  decode 0x00000051#32 = .ok .unpad ∧
  (∀ m : State,
    (¬buffersInRange m .unpad → exec .unpad m = .next { m with status := .errRange, rlen := 0#32 }) ∧
    (buffersInRange m .unpad →
      let n := (Memory.read m.mem (m.src.toNat + m.len.toNat - 1)).toNat
      let valid := 0 < m.len.toNat ∧ n ≠ 0 ∧ n ≤ m.len.toNat ∧
        ∀ i, m.len.toNat - n ≤ i → i < m.len.toNat → (Memory.read m.mem (m.src.toNat + i)).toNat = n
      (valid → exec .unpad m = .next { m with status := .ok, rlen := m.len - BitVec.ofNat 32 n }) ∧
      (¬valid → exec .unpad m = .next { m with status := .errPad, rlen := 0#32 }))) ∧
  unpad (bytesOfHex 4 0xaa030303) = some (bytesOfHex 1 0xaa) ∧ unpad (bytesOfHex 4 0xaabb0303) = none

/-- Padding is always removable: the padded length is a multiple of the block size and `unpad` gives the buffer back, for every buffer and
every block size in 1..255; `unpad` rejects a pad-length byte of 0, a buffer that is too short and unequal trailing bytes; and padding an
unpadded buffer need not give it back (R232). -/
def Obligations.UnpadUndoesPad : Prop :=
  (∀ (buf : List Byte) (bs : Nat), 1 ≤ bs → bs ≤ 255 →
    ∃ out, pad buf bs = some out ∧ out.length % bs = 0 ∧ unpad out = some buf) ∧
  (∀ (buf : List Byte) (n : Byte), buf.getLast? = some n →
    (n = 0#8 ∨ buf.length < n.toNat ∨ ∃ i b, buf.length - n.toNat ≤ i ∧ buf[i]? = some b ∧ b ≠ n) →
    unpad buf = none) ∧
  (∃ (buf out : List Byte) (bs : Nat), unpad buf = some out ∧ 1 ≤ bs ∧ bs ≤ 255 ∧ pad out bs ≠ some buf)

/-- The term `pad 0`, which no word decodes to, fails with `ERR_CMD` and changes nothing else, as the host's write of the reserved word
0x00000050 does. That the term runs so is the model's choice, log entry 8; of the word it is R94. -/
def Obligations.PadZeroFailsAsItsWord : Prop :=
  (∀ m : State, exec (.pad 0#8) m = .next { m with status := .errCmd }) ∧
  (∀ (m : State) (rest : List HostAction), m.script = wr .cmd 0x00000050#32 :: rest →
    step m = .next { m with script := rest, cmd := 0x00000050#32, status := .errCmd })
end

