-- ==== Sys2Proof/Laws/Memory.lean ====
section
/-! SUPPORT. The laws of the buffer space (R61): what a read returns after a write, and that every memory operation keeps the canonical
form and the bound on addresses. -/

namespace Sys2Proof.Machine

/-! ### Read after write -/

theorem Memory.read_erase_self (cells : Memory) (a : Nat) :
    Memory.read (Memory.erase cells a) a = Config.unlistedByte := by
  induction cells with
  | nil => rfl
  | cons c rest ih =>
    obtain ⟨b, v⟩ := c
    by_cases h : b = a <;> simp [Memory.erase, Memory.read, h, ih]

theorem Memory.read_erase_ne {a b : Nat} (cells : Memory) (h : b ≠ a) :
    Memory.read (Memory.erase cells a) b = Memory.read cells b := by
  induction cells with
  | nil => rfl
  | cons c rest ih =>
    obtain ⟨x, v⟩ := c
    by_cases hx : x = a
    · have : x ≠ b := fun e => h (e.symm.trans hx)
      simp [Memory.erase, Memory.read, hx, ih]
      intro e
      exact absurd e.symm h
    · simp [Memory.erase, Memory.read, hx, ih]

theorem Memory.read_insert_ne {a b : Nat} (cells : Memory) (v : Byte) (h : b ≠ a) :
    Memory.read (Memory.insert cells a v) b = Memory.read cells b := by
  induction cells with
  | nil => simp [Memory.insert, Memory.read, Ne.symm h]
  | cons c rest ih =>
    obtain ⟨x, w⟩ := c
    by_cases hx : a < x <;> simp [Memory.insert, Memory.read, hx, ih, Ne.symm h]

theorem Memory.read_insert_erase (cells : Memory) (a : Nat) (v : Byte) :
    Memory.read (Memory.insert (Memory.erase cells a) a v) a = v := by
  induction cells with
  | nil => simp [Memory.erase, Memory.insert, Memory.read]
  | cons c rest ih =>
    obtain ⟨x, w⟩ := c
    by_cases hx : x = a
    · simpa [Memory.erase, hx] using ih
    · by_cases hlt : a < x <;> simp [Memory.erase, Memory.insert, Memory.read, hx, hlt, ih]

/-- A read after a write to the same address gives the byte written. -/
@[simp] theorem Memory.read_write_self (cells : Memory) (a : Nat) (v : Byte) :
    Memory.read (Memory.write cells a v) a = v := by
  unfold Memory.write
  split
  · next h => rw [Memory.read_erase_self, h]
  · exact Memory.read_insert_erase cells a v

/-- A write leaves every other address alone. -/
theorem Memory.read_write_ne {a b : Nat} (cells : Memory) (v : Byte) (h : b ≠ a) :
    Memory.read (Memory.write cells a v) b = Memory.read cells b := by
  unfold Memory.write
  split
  · exact Memory.read_erase_ne cells h
  · rw [Memory.read_insert_ne _ _ h, Memory.read_erase_ne _ h]

/-- A write of a byte string leaves the addresses below it alone. -/
theorem Memory.read_writeBytes_below {c : Nat} (vs : List Byte) :
    ∀ (cells : Memory) (a : Nat), c < a → Memory.read (Memory.writeBytes cells a vs) c = Memory.read cells c := by
  induction vs with
  | nil => intros; rfl
  | cons v vs ih =>
    intro cells a h
    rw [Memory.writeBytes, ih _ _ (by omega), Memory.read_write_ne _ _ (by omega)]

/-- A write of a byte string leaves the addresses above it alone. -/
theorem Memory.read_writeBytes_above {c : Nat} (vs : List Byte) :
    ∀ (cells : Memory) (a : Nat), a + vs.length ≤ c →
      Memory.read (Memory.writeBytes cells a vs) c = Memory.read cells c := by
  induction vs with
  | nil => intros; rfl
  | cons v vs ih =>
    intro cells a h
    simp only [List.length_cons] at h
    rw [Memory.writeBytes, ih _ _ (by omega), Memory.read_write_ne _ _ (by omega)]

/-- A write of a byte string leaves every address outside it alone. -/
theorem Memory.read_writeBytes_outside {c : Nat} (vs : List Byte) (cells : Memory) (a : Nat)
    (h : c < a ∨ a + vs.length ≤ c) :
    Memory.read (Memory.writeBytes cells a vs) c = Memory.read cells c :=
  h.elim (Memory.read_writeBytes_below vs cells a) (Memory.read_writeBytes_above vs cells a)

/-- Byte `i` of a byte string stands at the `i`-th address from its base. -/
theorem Memory.read_writeBytes_inside (vs : List Byte) :
    ∀ (cells : Memory) (a i : Nat) (h : i < vs.length),
      Memory.read (Memory.writeBytes cells a vs) (a + i) = vs[i] := by
  induction vs with
  | nil => intro _ _ i h; simp at h
  | cons v vs ih =>
    intro cells a i h
    cases i with
    | zero =>
      rw [Memory.writeBytes, Nat.add_zero, Memory.read_writeBytes_below _ _ _ (by omega)]
      simp
    | succ i =>
      have := ih (Memory.write cells a v) (a + 1) i (by simpa using h)
      rw [Memory.writeBytes, show a + (i + 1) = a + 1 + i by omega, this]
      simp

@[simp] theorem Memory.length_readBytes (cells : Memory) (n : Nat) :
    ∀ a, (Memory.readBytes cells a n).length = n := by
  induction n with
  | zero => intro _; rfl
  | succ n ih => intro a; simp [Memory.readBytes, ih]

/-- Byte `i` of a byte string read is the byte at the `i`-th address from its base. -/
theorem Memory.getElem_readBytes (cells : Memory) (n : Nat) :
    ∀ (a i : Nat) (h : i < (Memory.readBytes cells a n).length),
      (Memory.readBytes cells a n)[i] = Memory.read cells (a + i) := by
  induction n with
  | zero => intro a i h; simp [Memory.readBytes] at h
  | succ n ih =>
    intro a i h
    cases i with
    | zero => simp [Memory.readBytes]
    | succ i => simp [Memory.readBytes, ih, show a + 1 + i = a + (i + 1) by omega]

/-! ### Which cells a write can leave -/

theorem Memory.mem_of_mem_erase {c : Host.Cell} (cells : Memory) (a : Nat) (h : c ∈ Memory.erase cells a) :
    c ∈ cells := by
  induction cells with
  | nil => exact h
  | cons d rest ih =>
    obtain ⟨b, v⟩ := d
    by_cases hb : b = a
    · simp only [Memory.erase, hb, if_true] at h
      exact List.mem_cons_of_mem _ (ih h)
    · simp only [Memory.erase, hb, if_false, List.mem_cons] at h
      exact h.elim (fun e => e ▸ List.mem_cons_self) (fun h => List.mem_cons_of_mem _ (ih h))

theorem Memory.mem_of_mem_insert {c : Host.Cell} (cells : Memory) (a : Nat) (v : Byte)
    (h : c ∈ Memory.insert cells a v) : c = (a, v) ∨ c ∈ cells := by
  induction cells with
  | nil => simpa [Memory.insert] using h
  | cons d rest ih =>
    obtain ⟨b, w⟩ := d
    by_cases hb : a < b
    · simpa [Memory.insert, hb] using h
    · simp only [Memory.insert, hb, if_false, List.mem_cons] at h ⊢
      rcases h with h | h
      · exact Or.inr (Or.inl h)
      · exact (ih h).imp id Or.inr

/-! ### The bound on addresses -/

theorem Memory.within_iff {limit : Nat} {cells : Memory} :
    Memory.within limit cells = true ↔ ∀ c ∈ cells, c.1 < limit := by
  simp only [Memory.within, List.all_eq_true, decide_eq_true_eq]

theorem Memory.within_erase {limit : Nat} (cells : Memory) (a : Nat) (h : Memory.within limit cells = true) :
    Memory.within limit (Memory.erase cells a) = true :=
  Memory.within_iff.2 fun c hc => Memory.within_iff.1 h c (Memory.mem_of_mem_erase cells a hc)

theorem Memory.within_insert {limit : Nat} (cells : Memory) (a : Nat) (v : Byte) (ha : a < limit)
    (h : Memory.within limit cells = true) : Memory.within limit (Memory.insert cells a v) = true :=
  Memory.within_iff.2 fun c hc =>
    (Memory.mem_of_mem_insert cells a v hc).elim (fun e => e ▸ ha) (Memory.within_iff.1 h c)

theorem Memory.within_write {limit : Nat} (cells : Memory) (a : Nat) (v : Byte) (ha : a < limit)
    (h : Memory.within limit cells = true) : Memory.within limit (Memory.write cells a v) = true := by
  unfold Memory.write
  split
  · exact Memory.within_erase cells a h
  · exact Memory.within_insert _ a v ha (Memory.within_erase cells a h)

theorem Memory.within_writeBytes {limit : Nat} (vs : List Byte) :
    ∀ (cells : Memory) (a : Nat), a + vs.length ≤ limit → Memory.within limit cells = true →
      Memory.within limit (Memory.writeBytes cells a vs) = true := by
  induction vs with
  | nil => intro _ _ _ h; exact h
  | cons v vs ih =>
    intro cells a ha h
    simp only [List.length_cons] at ha
    exact ih _ _ (by omega) (Memory.within_write cells a v (by omega) h)

/-! ### The canonical form -/

theorem Memory.above_iff {x : Nat} {cells : Memory} :
    Memory.above x cells = true ↔ ∀ c ∈ cells, x < c.1 := by
  simp only [Memory.above, List.all_eq_true, decide_eq_true_eq]

theorem Memory.above_erase {x : Nat} (cells : Memory) (a : Nat) (h : Memory.above x cells = true) :
    Memory.above x (Memory.erase cells a) = true :=
  Memory.above_iff.2 fun c hc => Memory.above_iff.1 h c (Memory.mem_of_mem_erase cells a hc)

theorem Memory.wf_erase (cells : Memory) (a : Nat) (h : Memory.wf cells = true) :
    Memory.wf (Memory.erase cells a) = true := by
  induction cells with
  | nil => rfl
  | cons c rest ih =>
    obtain ⟨b, v⟩ := c
    simp only [Memory.wf, Bool.and_eq_true] at h
    by_cases hb : b = a
    · simpa [Memory.erase, hb] using ih h.2
    · simp only [Memory.erase, hb, if_false, Memory.wf, Bool.and_eq_true]
      exact ⟨⟨h.1.1, Memory.above_erase rest a h.1.2⟩, ih h.2⟩

/-- No cell of the memory holds the address `a`. -/
theorem Memory.erase_absent (cells : Memory) (a : Nat) : ∀ c ∈ Memory.erase cells a, c.1 ≠ a := by
  induction cells with
  | nil => simp [Memory.erase]
  | cons c rest ih =>
    obtain ⟨b, v⟩ := c
    by_cases hb : b = a
    · simpa [Memory.erase, hb] using ih
    · intro c hc
      simp only [Memory.erase, hb, if_false, List.mem_cons] at hc
      rcases hc with rfl | hc
      · exact hb
      · exact ih c hc

theorem Memory.above_trans {x y : Nat} (cells : Memory) (hxy : x < y) (h : Memory.above y cells = true) :
    Memory.above x cells = true :=
  Memory.above_iff.2 fun c hc => Nat.lt_trans hxy (Memory.above_iff.1 h c hc)

theorem Memory.above_insert {x a : Nat} (cells : Memory) (v : Byte) (hx : x < a) (h : Memory.above x cells = true) :
    Memory.above x (Memory.insert cells a v) = true :=
  Memory.above_iff.2 fun c hc =>
    (Memory.mem_of_mem_insert cells a v hc).elim (fun e => e ▸ hx) (Memory.above_iff.1 h c)

theorem Memory.wf_insert (cells : Memory) (a : Nat) (v : Byte) (hv : v ≠ Config.unlistedByte)
    (habs : ∀ c ∈ cells, c.1 ≠ a) (h : Memory.wf cells = true) : Memory.wf (Memory.insert cells a v) = true := by
  induction cells with
  | nil => simp [Memory.insert, Memory.wf, Memory.above, hv]
  | cons c rest ih =>
    obtain ⟨b, w⟩ := c
    have hne : b ≠ a := habs (b, w) (by simp)
    simp only [Memory.wf, Bool.and_eq_true] at h
    by_cases hb : a < b
    · have hrest : Memory.above a rest = true := Memory.above_trans rest hb h.1.2
      simp only [Memory.insert, hb, if_true, Memory.wf, Bool.and_eq_true]
      refine ⟨⟨by simpa using hv, ?_⟩, h⟩
      simpa [Memory.above, hb] using hrest
    · have hlt : b < a := by omega
      simp only [Memory.insert, hb, if_false, Memory.wf, Bool.and_eq_true]
      exact ⟨⟨h.1.1, Memory.above_insert rest v hlt h.1.2⟩, ih (fun c hc => habs c (by simp [hc])) h.2⟩

theorem Memory.wf_write (cells : Memory) (a : Nat) (v : Byte) (h : Memory.wf cells = true) :
    Memory.wf (Memory.write cells a v) = true := by
  unfold Memory.write
  split
  · exact Memory.wf_erase cells a h
  · next hv => exact Memory.wf_insert _ a v hv (Memory.erase_absent cells a) (Memory.wf_erase cells a h)

theorem Memory.wf_writeBytes (vs : List Byte) :
    ∀ (cells : Memory) (a : Nat), Memory.wf cells = true → Memory.wf (Memory.writeBytes cells a vs) = true := by
  induction vs with
  | nil => intro _ _ h; exact h
  | cons v vs ih => intro cells a h; exact ih _ _ (Memory.wf_write cells a v h)

/-- The memory a reset leaves is in canonical form and within bounds, whatever the image lists. -/
theorem Memory.load_canonical (limit : Nat) (cells : List Host.Cell) :
    Memory.wf (Memory.load limit cells) = true ∧ Memory.within limit (Memory.load limit cells) = true := by
  have key : ∀ (cs : List Host.Cell) (mem : Memory), Memory.wf mem = true → Memory.within limit mem = true →
      Memory.wf (cs.foldl (fun mem c => if c.1 < limit then Memory.write mem c.1 c.2 else mem) mem) = true ∧
      Memory.within limit (cs.foldl (fun mem c => if c.1 < limit then Memory.write mem c.1 c.2 else mem) mem) = true := by
    intro cs
    induction cs with
    | nil => intro mem h1 h2; exact ⟨h1, h2⟩
    | cons c cs ih =>
      intro mem h1 h2
      by_cases hc : c.1 < limit
      · simpa [hc] using ih _ (Memory.wf_write mem c.1 c.2 h1) (Memory.within_write mem c.1 c.2 hc h2)
      · simpa [hc] using ih _ h1 h2
  exact key cells [] rfl rfl

end Sys2Proof.Machine
end

