-- ==== Sys2Proof/Laws/Blocks.lean ====
section
/-! SUPPORT. Byte strings as lists of blocks: splitting and joining, the block at a place in memory, and the blocks of the CBC functions. -/

namespace Sys2Proof.Machine

/-! ### Blocks byte by byte -/

@[simp] theorem blockByte_blockOfFn (f : Fin 16 → Byte) (i : Fin 16) : blockByte (blockOfFn f) i = f i := by
  fin_cases i <;> rfl

@[simp] theorem blockOfFn_blockByte (x : Block) : blockOfFn (blockByte x) = x := rfl

/-- Two blocks with the same sixteen bytes are equal. -/
theorem block_ext {x y : Block} (h : ∀ i, blockByte x i = blockByte y i) : x = y := by
  rw [← blockOfFn_blockByte x, ← blockOfFn_blockByte y, funext h]

@[simp] theorem length_blockBytes (x : Block) : (blockBytes x).length = 16 := rfl

theorem getElem_blockBytes (x : Block) (j : Nat) (h : j < (blockBytes x).length) :
    (blockBytes x)[j] = blockByte x ⟨j, h⟩ := by
  have key : ∀ i : Fin 16, (blockBytes x)[i.val]'(by simp) = blockByte x i := by
    intro i
    fin_cases i <;> rfl
  exact key ⟨j, h⟩

theorem blockByte_xor (x y : Block) (i : Fin 16) : blockByte (x.xor y) i = blockByte x i ^^^ blockByte y i := by
  fin_cases i <;> rfl

/-! ### Splitting and joining -/

@[simp] theorem joinBlocks_nil : joinBlocks [] = [] := rfl

@[simp] theorem joinBlocks_cons (b : Block) (bs : List Block) : joinBlocks (b :: bs) = blockBytes b ++ joinBlocks bs :=
  rfl

@[simp] theorem length_joinBlocks (bs : List Block) : (joinBlocks bs).length = 16 * bs.length := by
  induction bs with
  | nil => rfl
  | cons b bs ih => simp [ih]; omega

/-- The blocks of a joined list of blocks are that list. -/
@[simp] theorem splitBlocks_joinBlocks (bs : List Block) : splitBlocks (joinBlocks bs) = some bs := by
  induction bs with
  | nil => rfl
  | cons b bs ih =>
    obtain ⟨⟨_, _, _, _⟩, ⟨_, _, _, _⟩, ⟨_, _, _, _⟩, ⟨_, _, _, _⟩⟩ := b
    simp [blockBytes, quadBytes, splitBlocks, ih]

/-- A byte string whose length is a multiple of 16 is a joined list of blocks. -/
theorem exists_joinBlocks (n : Nat) : ∀ l : List Byte, l.length = 16 * n → ∃ bs : List Block, l = joinBlocks bs ∧ bs.length = n := by
  induction n with
  | zero => intro l h; exact ⟨[], List.length_eq_zero_iff.1 (by simpa using h), rfl⟩
  | succ n ih =>
    intro l h
    obtain ⟨bs, hbs, hn⟩ := ih (l.drop 16) (by simp [h]; omega)
    refine ⟨blockOfFn (fun i => l[i.val]'(by omega)) :: bs, ?_, by simp [hn]⟩
    rw [joinBlocks_cons, ← hbs]
    conv_lhs => rw [← List.take_append_drop 16 l]
    congr 1
    refine List.ext_getElem (by simp [h]) fun j h1 h2 => ?_
    rw [getElem_blockBytes, blockByte_blockOfFn, List.getElem_take]

/-- Byte `16i + j` of a joined list of blocks is byte `j` of block `i`. -/
theorem getElem_joinBlocks (bs : List Block) : ∀ (i : Nat) (j : Fin 16) (h : i < bs.length),
    (joinBlocks bs)[16 * i + j.val]'(by simp; omega) = blockByte bs[i] j := by
  induction bs with
  | nil => intro i j h; simp at h
  | cons b bs ih =>
    intro i j h
    cases i with
    | zero =>
      simp only [joinBlocks_cons, Nat.mul_zero, Nat.zero_add, List.getElem_cons_zero]
      exact (List.getElem_append_left (by simp)).trans (getElem_blockBytes b j.val (by simp))
    | succ i =>
      simp only [joinBlocks_cons, List.getElem_cons_succ]
      rw [List.getElem_append_right (by simp; omega), ← ih i j (by simpa using h)]
      congr 1
      simp
      omega

/-! ### Blocks in memory -/

/-- A block read from memory where the byte string read is a joined list of blocks. -/
theorem Memory.readBlock_of_readBytes {cells : Memory} {a n : Nat} {bs : List Block}
    (h : Memory.readBytes cells a n = joinBlocks bs) {i : Nat} (hi : i < bs.length) :
    Memory.readBlock cells (a + 16 * i) = bs[i] := by
  apply block_ext
  intro j
  have hn : n = 16 * bs.length := by simpa using congrArg List.length h
  have h1 := Memory.getElem_readBytes cells n a (16 * i + j.val) (by simp; omega)
  have h2 := getElem_joinBlocks bs i j hi
  simp only [h] at h1
  rw [Memory.readBlock, blockByte_blockOfFn, ← h2, h1, Nat.add_assoc]

/-- A block read back after a joined list of blocks is written. -/
theorem Memory.readBlock_writeBytes (cells : Memory) (a : Nat) (bs : List Block) {i : Nat} (hi : i < bs.length) :
    Memory.readBlock (Memory.writeBytes cells a (joinBlocks bs)) (a + 16 * i) = bs[i] := by
  apply block_ext
  intro j
  rw [Memory.readBlock, blockByte_blockOfFn, Nat.add_assoc,
    Memory.read_writeBytes_inside _ _ _ _ (by simp; omega), getElem_joinBlocks bs i j hi]

/-! ### The blocks of the CBC functions -/

@[simp] theorem length_cbcEncryptBlocks (f : Block → Block) (bs : List Block) :
    ∀ prev, (cbcEncryptBlocks f prev bs).length = bs.length := by
  induction bs with
  | nil => intro _; rfl
  | cons b bs ih => intro prev; simp [cbcEncryptBlocks, ih]

@[simp] theorem length_cbcDecryptBlocks (f : Block → Block) (bs : List Block) :
    ∀ prev, (cbcDecryptBlocks f prev bs).length = bs.length := by
  induction bs with
  | nil => intro _; rfl
  | cons b bs ih => intro prev; simp [cbcDecryptBlocks, ih]

/-- Output block 0 of CBC encryption. -/
theorem cbcEncryptBlocks_zero (f : Block → Block) (prev : Block) (bs : List Block) (h : 0 < bs.length) :
    (cbcEncryptBlocks f prev bs)[0]'(by simpa using h) = f (bs[0].xor prev) := by
  cases bs with
  | nil => simp at h
  | cons b bs => rfl

/-- Output block `i + 1` of CBC encryption chains output block `i`. -/
theorem cbcEncryptBlocks_succ (f : Block → Block) (bs : List Block) : ∀ (prev : Block) (i : Nat) (h : i + 1 < bs.length),
    (cbcEncryptBlocks f prev bs)[i + 1]'(by simpa using h) =
      f (bs[i + 1].xor ((cbcEncryptBlocks f prev bs)[i]'(by simp; omega))) := by
  induction bs with
  | nil => intro _ i h; simp at h
  | cons b bs ih =>
    intro prev i h
    simp only [List.length_cons, Nat.add_lt_add_iff_right] at h
    cases i with
    | zero => simpa [cbcEncryptBlocks] using cbcEncryptBlocks_zero f (f (b.xor prev)) bs h
    | succ i => simpa [cbcEncryptBlocks] using ih (f (b.xor prev)) i h

/-- Output block 0 of CBC decryption. -/
theorem cbcDecryptBlocks_zero (f : Block → Block) (prev : Block) (bs : List Block) (h : 0 < bs.length) :
    (cbcDecryptBlocks f prev bs)[0]'(by simpa using h) = (f bs[0]).xor prev := by
  cases bs with
  | nil => simp at h
  | cons b bs => rfl

/-- Output block `i + 1` of CBC decryption chains input block `i`. -/
theorem cbcDecryptBlocks_succ (f : Block → Block) (bs : List Block) : ∀ (prev : Block) (i : Nat) (h : i + 1 < bs.length),
    (cbcDecryptBlocks f prev bs)[i + 1]'(by simpa using h) = (f bs[i + 1]).xor (bs[i]'(by omega)) := by
  induction bs with
  | nil => intro _ i h; simp at h
  | cons b bs ih =>
    intro prev i h
    simp only [List.length_cons, Nat.add_lt_add_iff_right] at h
    cases i with
    | zero => simpa [cbcDecryptBlocks] using cbcDecryptBlocks_zero f b bs h
    | succ i => simpa [cbcDecryptBlocks] using ih b i h

/-! ### Lengths of the other outputs -/

@[simp] theorem length_ctrBlocks (f : Block → Block) (nonce : Nonce) (n : Nat) :
    ∀ (j : Nat) (input : List Byte), input.length ≤ 16 * n → (ctrBlocks f nonce n j input).length = input.length := by
  induction n with
  | zero => intro j input h; simp at h; simp [ctrBlocks, h]
  | succ n ih =>
    intro j input h
    simp only [ctrBlocks, xorBytes, List.length_append, List.length_zipWith, List.length_take, length_blockBytes]
    rw [ih _ _ (by simp; omega)]
    simp
    omega

@[simp] theorem length_ctr (f : Block → Block) (nonce : Nonce) (input : List Byte) :
    (ctr f nonce input).length = input.length :=
  length_ctrBlocks f nonce _ 0 input (by omega)

end Sys2Proof.Machine
end

