-- ==== Sys2Proof/Laws/State.lean ====
section
/-! SUPPORT. One lemma for each field of the state and each update of it that the commands and the host port share. -/

namespace Sys2Proof.Machine

/-! ### A successful end of a command -/

@[simp] theorem complete_k (m : State) : (complete m).k = m.k := rfl
@[simp] theorem complete_rk (m : State) : (complete m).rk = m.rk := rfl
@[simp] theorem complete_rnd (m : State) : (complete m).rnd = m.rnd := rfl
@[simp] theorem complete_s (m : State) : (complete m).s = m.s := rfl
@[simp] theorem complete_cv (m : State) : (complete m).cv = m.cv := rfl
@[simp] theorem complete_nonce (m : State) : (complete m).nonce = m.nonce := rfl
@[simp] theorem complete_src (m : State) : (complete m).src = m.src := rfl
@[simp] theorem complete_dst (m : State) : (complete m).dst = m.dst := rfl
@[simp] theorem complete_len (m : State) : (complete m).len = m.len := rfl
@[simp] theorem complete_rlen (m : State) : (complete m).rlen = m.rlen := rfl
@[simp] theorem complete_fr (m : State) : (complete m).fr = m.fr := rfl
@[simp] theorem complete_status (m : State) : (complete m).status = .ok := rfl
@[simp] theorem complete_cmd (m : State) : (complete m).cmd = m.cmd := rfl
@[simp] theorem complete_mem (m : State) : (complete m).mem = m.mem := rfl
@[simp] theorem complete_memLast (m : State) : (complete m).memLast = m.memLast := rfl
@[simp] theorem complete_script (m : State) : (complete m).script = m.script := rfl
@[simp] theorem complete_observed (m : State) : (complete m).observed = m.observed := rfl

/-! ### A failed end of a command (R254) -/

@[simp] theorem fail_k (c : StatusCode) (m : State) : (fail c m).k = m.k := rfl
@[simp] theorem fail_rk (c : StatusCode) (m : State) : (fail c m).rk = m.rk := rfl
@[simp] theorem fail_rnd (c : StatusCode) (m : State) : (fail c m).rnd = m.rnd := rfl
@[simp] theorem fail_s (c : StatusCode) (m : State) : (fail c m).s = m.s := rfl
@[simp] theorem fail_cv (c : StatusCode) (m : State) : (fail c m).cv = m.cv := rfl
@[simp] theorem fail_nonce (c : StatusCode) (m : State) : (fail c m).nonce = m.nonce := rfl
@[simp] theorem fail_src (c : StatusCode) (m : State) : (fail c m).src = m.src := rfl
@[simp] theorem fail_dst (c : StatusCode) (m : State) : (fail c m).dst = m.dst := rfl
@[simp] theorem fail_len (c : StatusCode) (m : State) : (fail c m).len = m.len := rfl
@[simp] theorem fail_rlen (c : StatusCode) (m : State) : (fail c m).rlen = if clearsRlen c then 0#32 else m.rlen := rfl
@[simp] theorem fail_fr (c : StatusCode) (m : State) : (fail c m).fr = m.fr := rfl
@[simp] theorem fail_status (c : StatusCode) (m : State) : (fail c m).status = c := rfl
@[simp] theorem fail_cmd (c : StatusCode) (m : State) : (fail c m).cmd = m.cmd := rfl
@[simp] theorem fail_mem (c : StatusCode) (m : State) : (fail c m).mem = m.mem := rfl
@[simp] theorem fail_memLast (c : StatusCode) (m : State) : (fail c m).memLast = m.memLast := rfl
@[simp] theorem fail_script (c : StatusCode) (m : State) : (fail c m).script = m.script := rfl
@[simp] theorem fail_observed (c : StatusCode) (m : State) : (fail c m).observed = m.observed := rfl

/-! ### The end of a command that writes `FR` -/

@[simp] theorem finishFr_k (v : Byte) (m : State) : (finishFr v m).k = m.k := rfl
@[simp] theorem finishFr_rk (v : Byte) (m : State) : (finishFr v m).rk = m.rk := rfl
@[simp] theorem finishFr_rnd (v : Byte) (m : State) : (finishFr v m).rnd = m.rnd := rfl
@[simp] theorem finishFr_s (v : Byte) (m : State) : (finishFr v m).s = m.s := rfl
@[simp] theorem finishFr_cv (v : Byte) (m : State) : (finishFr v m).cv = m.cv := rfl
@[simp] theorem finishFr_nonce (v : Byte) (m : State) : (finishFr v m).nonce = m.nonce := rfl
@[simp] theorem finishFr_src (v : Byte) (m : State) : (finishFr v m).src = m.src := rfl
@[simp] theorem finishFr_dst (v : Byte) (m : State) : (finishFr v m).dst = m.dst := rfl
@[simp] theorem finishFr_len (v : Byte) (m : State) : (finishFr v m).len = m.len := rfl
@[simp] theorem finishFr_rlen (v : Byte) (m : State) : (finishFr v m).rlen = m.rlen := rfl
@[simp] theorem finishFr_fr (v : Byte) (m : State) : (finishFr v m).fr = v := rfl
@[simp] theorem finishFr_status (v : Byte) (m : State) : (finishFr v m).status = .ok := rfl
@[simp] theorem finishFr_cmd (v : Byte) (m : State) : (finishFr v m).cmd = m.cmd := rfl
@[simp] theorem finishFr_mem (v : Byte) (m : State) : (finishFr v m).mem = m.mem := rfl
@[simp] theorem finishFr_memLast (v : Byte) (m : State) : (finishFr v m).memLast = m.memLast := rfl
@[simp] theorem finishFr_script (v : Byte) (m : State) : (finishFr v m).script = m.script := rfl
@[simp] theorem finishFr_observed (v : Byte) (m : State) : (finishFr v m).observed = m.observed := rfl

/-! ### The end of a command that writes `S` -/

@[simp] theorem finishS_k (x : Block) (m : State) : (finishS x m).k = m.k := rfl
@[simp] theorem finishS_rk (x : Block) (m : State) : (finishS x m).rk = m.rk := rfl
@[simp] theorem finishS_rnd (x : Block) (m : State) : (finishS x m).rnd = m.rnd := rfl
@[simp] theorem finishS_s (x : Block) (m : State) : (finishS x m).s = x := rfl
@[simp] theorem finishS_cv (x : Block) (m : State) : (finishS x m).cv = m.cv := rfl
@[simp] theorem finishS_nonce (x : Block) (m : State) : (finishS x m).nonce = m.nonce := rfl
@[simp] theorem finishS_src (x : Block) (m : State) : (finishS x m).src = m.src := rfl
@[simp] theorem finishS_dst (x : Block) (m : State) : (finishS x m).dst = m.dst := rfl
@[simp] theorem finishS_len (x : Block) (m : State) : (finishS x m).len = m.len := rfl
@[simp] theorem finishS_rlen (x : Block) (m : State) : (finishS x m).rlen = m.rlen := rfl
@[simp] theorem finishS_fr (x : Block) (m : State) : (finishS x m).fr = m.fr := rfl
@[simp] theorem finishS_status (x : Block) (m : State) : (finishS x m).status = .ok := rfl
@[simp] theorem finishS_cmd (x : Block) (m : State) : (finishS x m).cmd = m.cmd := rfl
@[simp] theorem finishS_mem (x : Block) (m : State) : (finishS x m).mem = m.mem := rfl
@[simp] theorem finishS_memLast (x : Block) (m : State) : (finishS x m).memLast = m.memLast := rfl
@[simp] theorem finishS_script (x : Block) (m : State) : (finishS x m).script = m.script := rfl
@[simp] theorem finishS_observed (x : Block) (m : State) : (finishS x m).observed = m.observed := rfl

/-! ### The end of a command that writes `RK` and `RND` -/

@[simp] theorem finishRound_k (x : Block) (r : BitVec 4) (m : State) : (finishRound x r m).k = m.k := rfl
@[simp] theorem finishRound_rk (x : Block) (r : BitVec 4) (m : State) : (finishRound x r m).rk = x := rfl
@[simp] theorem finishRound_rnd (x : Block) (r : BitVec 4) (m : State) : (finishRound x r m).rnd = r := rfl
@[simp] theorem finishRound_s (x : Block) (r : BitVec 4) (m : State) : (finishRound x r m).s = m.s := rfl
@[simp] theorem finishRound_cv (x : Block) (r : BitVec 4) (m : State) : (finishRound x r m).cv = m.cv := rfl
@[simp] theorem finishRound_nonce (x : Block) (r : BitVec 4) (m : State) : (finishRound x r m).nonce = m.nonce := rfl
@[simp] theorem finishRound_src (x : Block) (r : BitVec 4) (m : State) : (finishRound x r m).src = m.src := rfl
@[simp] theorem finishRound_dst (x : Block) (r : BitVec 4) (m : State) : (finishRound x r m).dst = m.dst := rfl
@[simp] theorem finishRound_len (x : Block) (r : BitVec 4) (m : State) : (finishRound x r m).len = m.len := rfl
@[simp] theorem finishRound_rlen (x : Block) (r : BitVec 4) (m : State) : (finishRound x r m).rlen = m.rlen := rfl
@[simp] theorem finishRound_fr (x : Block) (r : BitVec 4) (m : State) : (finishRound x r m).fr = m.fr := rfl
@[simp] theorem finishRound_status (x : Block) (r : BitVec 4) (m : State) : (finishRound x r m).status = .ok := rfl
@[simp] theorem finishRound_cmd (x : Block) (r : BitVec 4) (m : State) : (finishRound x r m).cmd = m.cmd := rfl
@[simp] theorem finishRound_mem (x : Block) (r : BitVec 4) (m : State) : (finishRound x r m).mem = m.mem := rfl
@[simp] theorem finishRound_memLast (x : Block) (r : BitVec 4) (m : State) : (finishRound x r m).memLast = m.memLast := rfl
@[simp] theorem finishRound_script (x : Block) (r : BitVec 4) (m : State) : (finishRound x r m).script = m.script := rfl
@[simp] theorem finishRound_observed (x : Block) (r : BitVec 4) (m : State) : (finishRound x r m).observed = m.observed := rfl

/-! ### The end of a command that writes a buffer -/

@[simp] theorem finishBuffer_k (out : List Byte) (m : State) : (finishBuffer out m).k = m.k := rfl
@[simp] theorem finishBuffer_rk (out : List Byte) (m : State) : (finishBuffer out m).rk = m.rk := rfl
@[simp] theorem finishBuffer_rnd (out : List Byte) (m : State) : (finishBuffer out m).rnd = m.rnd := rfl
@[simp] theorem finishBuffer_s (out : List Byte) (m : State) : (finishBuffer out m).s = m.s := rfl
@[simp] theorem finishBuffer_cv (out : List Byte) (m : State) : (finishBuffer out m).cv = m.cv := rfl
@[simp] theorem finishBuffer_nonce (out : List Byte) (m : State) : (finishBuffer out m).nonce = m.nonce := rfl
@[simp] theorem finishBuffer_src (out : List Byte) (m : State) : (finishBuffer out m).src = m.src := rfl
@[simp] theorem finishBuffer_dst (out : List Byte) (m : State) : (finishBuffer out m).dst = m.dst := rfl
@[simp] theorem finishBuffer_len (out : List Byte) (m : State) : (finishBuffer out m).len = m.len := rfl
@[simp] theorem finishBuffer_rlen (out : List Byte) (m : State) : (finishBuffer out m).rlen = BitVec.ofNat 32 out.length := rfl
@[simp] theorem finishBuffer_fr (out : List Byte) (m : State) : (finishBuffer out m).fr = m.fr := rfl
@[simp] theorem finishBuffer_status (out : List Byte) (m : State) : (finishBuffer out m).status = .ok := rfl
@[simp] theorem finishBuffer_cmd (out : List Byte) (m : State) : (finishBuffer out m).cmd = m.cmd := rfl
@[simp] theorem finishBuffer_mem (out : List Byte) (m : State) : (finishBuffer out m).mem = Memory.writeBytes m.mem m.dst.toNat out := rfl
@[simp] theorem finishBuffer_memLast (out : List Byte) (m : State) : (finishBuffer out m).memLast = m.memLast := rfl
@[simp] theorem finishBuffer_script (out : List Byte) (m : State) : (finishBuffer out m).script = m.script := rfl
@[simp] theorem finishBuffer_observed (out : List Byte) (m : State) : (finishBuffer out m).observed = m.observed := rfl

/-! ### The end of a command that reports a length -/

@[simp] theorem finishLength_k (n : Nat) (m : State) : (finishLength n m).k = m.k := rfl
@[simp] theorem finishLength_rk (n : Nat) (m : State) : (finishLength n m).rk = m.rk := rfl
@[simp] theorem finishLength_rnd (n : Nat) (m : State) : (finishLength n m).rnd = m.rnd := rfl
@[simp] theorem finishLength_s (n : Nat) (m : State) : (finishLength n m).s = m.s := rfl
@[simp] theorem finishLength_cv (n : Nat) (m : State) : (finishLength n m).cv = m.cv := rfl
@[simp] theorem finishLength_nonce (n : Nat) (m : State) : (finishLength n m).nonce = m.nonce := rfl
@[simp] theorem finishLength_src (n : Nat) (m : State) : (finishLength n m).src = m.src := rfl
@[simp] theorem finishLength_dst (n : Nat) (m : State) : (finishLength n m).dst = m.dst := rfl
@[simp] theorem finishLength_len (n : Nat) (m : State) : (finishLength n m).len = m.len := rfl
@[simp] theorem finishLength_rlen (n : Nat) (m : State) : (finishLength n m).rlen = BitVec.ofNat 32 n := rfl
@[simp] theorem finishLength_fr (n : Nat) (m : State) : (finishLength n m).fr = m.fr := rfl
@[simp] theorem finishLength_status (n : Nat) (m : State) : (finishLength n m).status = .ok := rfl
@[simp] theorem finishLength_cmd (n : Nat) (m : State) : (finishLength n m).cmd = m.cmd := rfl
@[simp] theorem finishLength_mem (n : Nat) (m : State) : (finishLength n m).mem = m.mem := rfl
@[simp] theorem finishLength_memLast (n : Nat) (m : State) : (finishLength n m).memLast = m.memLast := rfl
@[simp] theorem finishLength_script (n : Nat) (m : State) : (finishLength n m).script = m.script := rfl
@[simp] theorem finishLength_observed (n : Nat) (m : State) : (finishLength n m).observed = m.observed := rfl

/-! ### An observation -/

@[simp] theorem observe_k (o : Observation) (m : State) : (observe o m).k = m.k := rfl
@[simp] theorem observe_rk (o : Observation) (m : State) : (observe o m).rk = m.rk := rfl
@[simp] theorem observe_rnd (o : Observation) (m : State) : (observe o m).rnd = m.rnd := rfl
@[simp] theorem observe_s (o : Observation) (m : State) : (observe o m).s = m.s := rfl
@[simp] theorem observe_cv (o : Observation) (m : State) : (observe o m).cv = m.cv := rfl
@[simp] theorem observe_nonce (o : Observation) (m : State) : (observe o m).nonce = m.nonce := rfl
@[simp] theorem observe_src (o : Observation) (m : State) : (observe o m).src = m.src := rfl
@[simp] theorem observe_dst (o : Observation) (m : State) : (observe o m).dst = m.dst := rfl
@[simp] theorem observe_len (o : Observation) (m : State) : (observe o m).len = m.len := rfl
@[simp] theorem observe_rlen (o : Observation) (m : State) : (observe o m).rlen = m.rlen := rfl
@[simp] theorem observe_fr (o : Observation) (m : State) : (observe o m).fr = m.fr := rfl
@[simp] theorem observe_status (o : Observation) (m : State) : (observe o m).status = m.status := rfl
@[simp] theorem observe_cmd (o : Observation) (m : State) : (observe o m).cmd = m.cmd := rfl
@[simp] theorem observe_mem (o : Observation) (m : State) : (observe o m).mem = m.mem := rfl
@[simp] theorem observe_memLast (o : Observation) (m : State) : (observe o m).memLast = m.memLast := rfl
@[simp] theorem observe_script (o : Observation) (m : State) : (observe o m).script = m.script := rfl
@[simp] theorem observe_observed (o : Observation) (m : State) : (observe o m).observed = m.observed ++ [o] := rfl

/-! ### Writing a register leaves the rest of the run alone -/

@[simp] theorem writeReg_memLast (r : Reg) (v : Word) (m : State) : (writeReg r v m).memLast = m.memLast := by
  cases r <;> rfl
@[simp] theorem writeReg_script (r : Reg) (v : Word) (m : State) : (writeReg r v m).script = m.script := by
  cases r <;> rfl
@[simp] theorem writeReg_observed (r : Reg) (v : Word) (m : State) : (writeReg r v m).observed = m.observed := by
  cases r <;> rfl
@[simp] theorem writeReg_mem (r : Reg) (v : Word) (m : State) : (writeReg r v m).mem = m.mem := by
  cases r <;> rfl
@[simp] theorem writeReg_fr (r : Reg) (v : Word) (m : State) : (writeReg r v m).fr = m.fr := by
  cases r <;> rfl
@[simp] theorem writeReg_rlen (r : Reg) (v : Word) (m : State) : (writeReg r v m).rlen = m.rlen := by
  cases r <;> rfl
@[simp] theorem writeReg_status (r : Reg) (v : Word) (m : State) : (writeReg r v m).status = m.status := by
  cases r <;> rfl

/-! ### Reset -/

@[simp] theorem applyReset_memLast (image : ResetImage) (m : State) : (applyReset image m).memLast = m.memLast := rfl
@[simp] theorem applyReset_script (image : ResetImage) (m : State) : (applyReset image m).script = m.script := rfl
@[simp] theorem applyReset_observed (image : ResetImage) (m : State) : (applyReset image m).observed = m.observed := rfl
@[simp] theorem applyReset_mem (image : ResetImage) (m : State) : (applyReset image m).mem = Memory.load m.memBytes image.mem := rfl

end Sys2Proof.Machine
end

