-- ==== Sys2Proof/Laws/Commands.lean ====
section
/-! SUPPORT. What the shared frame of the mode commands can do, the results of the mode functions, and the six forms in which every
command ends: later proofs cite these and do not unfold the meanings. -/

namespace Sys2Proof.Machine

/-! ### The range check -/

theorem srcInRange_iff (m : State) : srcInRange m = true ↔ m.src.toNat + m.len.toNat ≤ m.memBytes := by
  simp [srcInRange]

theorem dstInRange_iff (n : Nat) (m : State) : dstInRange n m = true ↔ m.dst.toNat + n ≤ m.memBytes := by
  simp [dstInRange]

@[simp] theorem length_inputBytes (m : State) : (inputBytes m).length = m.len.toNat := by simp [inputBytes]

/-- The buffer space is smaller than `2^32` bytes, so a length that fits in it fits a register. -/
theorem State.memBytes_lt (m : State) : m.memBytes < 2 ^ 32 := by
  have := m.memLast.isLt
  simp only [State.memBytes, Config.memSizes] at *
  omega

/-! ### The mode functions -/

/-- A mode function on whole blocks has a result of the input's length exactly when that is a multiple of 16. -/
theorem map_joinBlocks_splitBlocks (g : List Block → List Block) (hg : ∀ bs, (g bs).length = bs.length) (input : List Byte)
    (h : input.length % 16 = 0) :
    ∃ bs, input = joinBlocks bs ∧ (splitBlocks input).map (fun bs => joinBlocks (g bs)) = some (joinBlocks (g bs)) ∧
      (joinBlocks (g bs)).length = input.length := by
  obtain ⟨bs, rfl, _⟩ := exists_joinBlocks (input.length / 16) input (by omega)
  exact ⟨bs, rfl, by simp, by simp [hg]⟩

/-! ### The frame of the mode commands -/

theorem modeCommand_errLen (fn : List Byte → Option (List Byte)) {m : State} (h : m.len.toNat % 16 ≠ 0) :
    modeCommand true fn m = .next (fail .errLen m) := by
  simp [modeCommand, h]

theorem modeCommand_errRange {needs16 : Bool} (fn : List Byte → Option (List Byte)) {m : State}
    (h : needs16 = true → m.len.toNat % 16 = 0)
    (hr : ¬(m.src.toNat + m.len.toNat ≤ m.memBytes ∧ m.dst.toNat + m.len.toNat ≤ m.memBytes)) :
    modeCommand needs16 fn m = .next (fail .errRange m) := by
  rw [← srcInRange_iff, ← dstInRange_iff] at hr
  unfold modeCommand
  rw [if_neg (fun hc => hc.2 (h hc.1)), if_neg hr]

theorem modeCommand_ok {needs16 : Bool} {fn : List Byte → Option (List Byte)} {m : State} {out : List Byte}
    (h : needs16 = true → m.len.toNat % 16 = 0)
    (hr : m.src.toNat + m.len.toNat ≤ m.memBytes ∧ m.dst.toNat + m.len.toNat ≤ m.memBytes)
    (hout : fn (inputBytes m) = some out) :
    modeCommand needs16 fn m = .next (finishBuffer out m) := by
  rw [← srcInRange_iff, ← dstInRange_iff] at hr
  unfold modeCommand
  rw [if_neg (fun hc => hc.2 (h hc.1)), if_pos hr, hout]

/-- The three ways a mode command ends, for a function that has a result of the input's length whenever the length check passes. -/
theorem modeCommand_cases (needs16 : Bool) (fn : List Byte → Option (List Byte)) (m : State)
    (hfn : (needs16 = true → m.len.toNat % 16 = 0) → ∃ out, fn (inputBytes m) = some out ∧ out.length = m.len.toNat) :
    (needs16 = true ∧ m.len.toNat % 16 ≠ 0 ∧ modeCommand needs16 fn m = .next (fail .errLen m)) ∨
    ((needs16 = true → m.len.toNat % 16 = 0) ∧
      ¬(m.src.toNat + m.len.toNat ≤ m.memBytes ∧ m.dst.toNat + m.len.toNat ≤ m.memBytes) ∧
      modeCommand needs16 fn m = .next (fail .errRange m)) ∨
    ((needs16 = true → m.len.toNat % 16 = 0) ∧
      (m.src.toNat + m.len.toNat ≤ m.memBytes ∧ m.dst.toNat + m.len.toNat ≤ m.memBytes) ∧
      ∃ out, fn (inputBytes m) = some out ∧ out.length = m.len.toNat ∧
        modeCommand needs16 fn m = .next (finishBuffer out m)) := by
  by_cases h : needs16 = true → m.len.toNat % 16 = 0
  · by_cases hr : m.src.toNat + m.len.toNat ≤ m.memBytes ∧ m.dst.toNat + m.len.toNat ≤ m.memBytes
    · obtain ⟨out, h1, h2⟩ := hfn h
      exact Or.inr (Or.inr ⟨h, hr, out, h1, h2, modeCommand_ok h hr h1⟩)
    · exact Or.inr (Or.inl ⟨h, hr, modeCommand_errRange fn h hr⟩)
  · obtain ⟨hn, hl⟩ := Classical.not_imp.1 h
    subst hn
    exact Or.inl ⟨rfl, hl, modeCommand_errLen fn hl⟩

/-- The mode function of each mode command has a result of the input's length whenever the length check passes. -/
theorem ecb_result (f : Block → Block) (m : State) (h : true = true → m.len.toNat % 16 = 0) :
    ∃ out, ecb f (inputBytes m) = some out ∧ out.length = m.len.toNat := by
  obtain ⟨bs, -, h2, h3⟩ := map_joinBlocks_splitBlocks (List.map f) (by simp) (inputBytes m) (by simpa using h rfl)
  exact ⟨_, h2, by simpa using h3⟩

theorem cbcEncrypt_result (f : Block → Block) (iv : Block) (m : State) (h : true = true → m.len.toNat % 16 = 0) :
    ∃ out, cbcEncrypt f iv (inputBytes m) = some out ∧ out.length = m.len.toNat := by
  obtain ⟨bs, -, h2, h3⟩ := map_joinBlocks_splitBlocks (cbcEncryptBlocks f iv) (by simp) (inputBytes m) (by simpa using h rfl)
  exact ⟨_, h2, by simpa using h3⟩

theorem cbcDecrypt_result (f : Block → Block) (iv : Block) (m : State) (h : true = true → m.len.toNat % 16 = 0) :
    ∃ out, cbcDecrypt f iv (inputBytes m) = some out ∧ out.length = m.len.toNat := by
  obtain ⟨bs, -, h2, h3⟩ := map_joinBlocks_splitBlocks (cbcDecryptBlocks f iv) (by simp) (inputBytes m) (by simpa using h rfl)
  exact ⟨_, h2, by simpa using h3⟩

theorem ctr_result (f : Block → Block) (n : Nonce) (m : State) (_ : false = true → m.len.toNat % 16 = 0) :
    ∃ out, (fun input => some (ctr f n input)) (inputBytes m) = some out ∧ out.length = m.len.toNat :=
  ⟨_, rfl, by simp⟩

/-! ### Padding -/

theorem padCount_bounds (length : Nat) {bs : Nat} (h : 0 < bs) :
    1 ≤ padCount length bs ∧ padCount length bs ≤ bs := by
  have := Nat.mod_lt length h
  simp only [padCount]
  omega

@[simp] theorem length_appendPad (buf : List Byte) (n : Nat) : (appendPad buf n).length = buf.length + n := by
  simp [appendPad]

/-- What `unpad` gives back is a part of the buffer. -/
theorem length_unpad_le {buf out : List Byte} (h : unpad buf = some out) : out.length ≤ buf.length := by
  unfold unpad at h
  split at h
  · simp at h
  · split at h
    · simp at h
    · split at h
      · simp at h
      · split at h
        · simp only [Option.some.injEq] at h
          subst h
          simp
        · simp at h

/-! ### The forms in which a command ends -/

/-- The six forms in which a command ends, each with the opcodes of the commands that can end so. -/
theorem exec_forms (i : Instr) (m : State) :
    (∃ c, exec i m = .next (fail c m) ∧ c ≠ .ok ∧
      opcodeOf i ∈ [0x21#8, 0x22#8, 0x40#8, 0x41#8, 0x42#8, 0x43#8, 0x50#8, 0x51#8] ∧
      (clearsRlen c = true → opcodeOf i ∈ [0x40#8, 0x41#8, 0x42#8, 0x43#8, 0x50#8, 0x51#8])) ∨
    (∃ v, exec i m = .next (finishFr v m) ∧ opcodeOf i ∈ [0x01#8, 0x02#8, 0x03#8, 0x10#8, 0x11#8]) ∨
    (∃ x, exec i m = .next (finishS x m) ∧
      opcodeOf i ∈ [0x12#8, 0x13#8, 0x14#8, 0x15#8, 0x16#8, 0x17#8, 0x18#8, 0x30#8, 0x31#8]) ∨
    (∃ x r, exec i m = .next (finishRound x r m) ∧ opcodeOf i ∈ [0x20#8, 0x21#8, 0x22#8]) ∨
    (∃ out, exec i m = .next (finishBuffer out m) ∧ m.dst.toNat + out.length ≤ m.memBytes ∧
      opcodeOf i ∈ [0x40#8, 0x41#8, 0x42#8, 0x43#8, 0x50#8]) ∨
    (∃ n, exec i m = .next (finishLength n m) ∧ n ≤ m.len.toNat ∧ opcodeOf i = 0x51#8) := by
  have mode : ∀ {op : Byte} {needs16 : Bool} {fn : List Byte → Option (List Byte)},
      op ∈ [0x40#8, 0x41#8, 0x42#8, 0x43#8] →
      ((needs16 = true → m.len.toNat % 16 = 0) → ∃ out, fn (inputBytes m) = some out ∧ out.length = m.len.toNat) →
      (∃ c, modeCommand needs16 fn m = .next (fail c m) ∧ c ≠ .ok ∧
        op ∈ [0x21#8, 0x22#8, 0x40#8, 0x41#8, 0x42#8, 0x43#8, 0x50#8, 0x51#8] ∧
        (clearsRlen c = true → op ∈ [0x40#8, 0x41#8, 0x42#8, 0x43#8, 0x50#8, 0x51#8])) ∨
      (∃ out, modeCommand needs16 fn m = .next (finishBuffer out m) ∧ m.dst.toNat + out.length ≤ m.memBytes ∧
        op ∈ [0x40#8, 0x41#8, 0x42#8, 0x43#8, 0x50#8]) := by
    intro op needs16 fn hop hfn
    simp only [List.mem_cons, List.not_mem_nil, or_false] at hop ⊢
    rcases modeCommand_cases needs16 fn m hfn with ⟨-, -, h⟩ | ⟨-, -, h⟩ | ⟨-, hr, out, -, hlen, h⟩
    · exact Or.inl ⟨_, h, by decide, by tauto, fun _ => by tauto⟩
    · exact Or.inl ⟨_, h, by decide, by tauto, fun _ => by tauto⟩
    · exact Or.inr ⟨_, h, by omega, by tauto⟩
  cases i with
  | gfmul a b => exact Or.inr (Or.inl ⟨_, rfl, by simp [opcodeOf]⟩)
  | gfpow a n => exact Or.inr (Or.inl ⟨_, rfl, by simp [opcodeOf]⟩)
  | gfinv a => exact Or.inr (Or.inl ⟨_, rfl, by simp [opcodeOf]⟩)
  | sboxb a => exact Or.inr (Or.inl ⟨_, rfl, by simp [opcodeOf]⟩)
  | isboxb a => exact Or.inr (Or.inl ⟨_, rfl, by simp [opcodeOf]⟩)
  | subb => exact Or.inr (Or.inr (Or.inl ⟨_, rfl, by decide⟩))
  | isubb => exact Or.inr (Or.inr (Or.inl ⟨_, rfl, by decide⟩))
  | shrow => exact Or.inr (Or.inr (Or.inl ⟨_, rfl, by decide⟩))
  | ishrow => exact Or.inr (Or.inr (Or.inl ⟨_, rfl, by decide⟩))
  | mixc => exact Or.inr (Or.inr (Or.inl ⟨_, rfl, by decide⟩))
  | imixc => exact Or.inr (Or.inr (Or.inl ⟨_, rfl, by decide⟩))
  | addrk => exact Or.inr (Or.inr (Or.inl ⟨_, rfl, by decide⟩))
  | encblk => exact Or.inr (Or.inr (Or.inl ⟨_, rfl, by decide⟩))
  | decblk => exact Or.inr (Or.inr (Or.inl ⟨_, rfl, by decide⟩))
  | ksload => exact Or.inr (Or.inr (Or.inr (Or.inl ⟨_, _, rfl, by decide⟩)))
  | ksnext =>
    cases h : nextRoundKey m.rk m.rnd.toNat with
    | none => exact Or.inl ⟨.errRnd, by simp [exec, execKsnext, h], by decide, by decide, by decide⟩
    | some rk => exact Or.inr (Or.inr (Or.inr (Or.inl ⟨rk, m.rnd + 1#4, by simp only [exec, execKsnext, h], by decide⟩)))
  | ksprev =>
    cases h : previousRoundKey m.rk m.rnd.toNat with
    | none => exact Or.inl ⟨.errRnd, by simp [exec, execKsprev, h], by decide, by decide, by decide⟩
    | some rk => exact Or.inr (Or.inr (Or.inr (Or.inl ⟨rk, m.rnd - 1#4, by simp only [exec, execKsprev, h], by decide⟩)))
  | ecb d =>
    exact (mode (op := 0x40#8) (by decide) (ecb_result _ m)).imp id fun h => Or.inr (Or.inr (Or.inr (Or.inl h)))
  | cbce d =>
    exact (mode (op := 0x41#8) (by decide) (cbcEncrypt_result _ _ m)).imp id fun h => Or.inr (Or.inr (Or.inr (Or.inl h)))
  | cbcd d =>
    exact (mode (op := 0x42#8) (by decide) (cbcDecrypt_result _ _ m)).imp id fun h => Or.inr (Or.inr (Or.inr (Or.inl h)))
  | ctr d =>
    exact (mode (op := 0x43#8) (needs16 := false) (fn := fun input => some (ctr (blockTransform d m.k) m.nonce input))
      (by decide) (ctr_result _ _ m)).imp id fun h => Or.inr (Or.inr (Or.inr (Or.inl h)))
  | pad bs =>
    by_cases hz : bs = 0#8
    · exact Or.inl ⟨.errCmd, by simp [exec, execPad, hz], by decide, by simp [opcodeOf], by simp [opcodeOf]⟩
    · by_cases hr : srcInRange m = true ∧ dstInRange (m.len.toNat + padCount m.len.toNat bs.toNat) m = true
      · refine Or.inr (Or.inr (Or.inr (Or.inr (Or.inl
          ⟨appendPad (inputBytes m) (padCount m.len.toNat bs.toNat), by simp [exec, execPad, hz, hr], ?_, by simp [opcodeOf]⟩))))
        have := (dstInRange_iff _ _).1 hr.2
        simpa using this
      · exact Or.inl ⟨.errRange, by simp only [exec, execPad, hz, if_false, hr], by decide, by simp [opcodeOf], by simp [opcodeOf]⟩
  | unpad =>
    by_cases hr : srcInRange m = true
    · cases hu : unpad (inputBytes m) with
      | none => exact Or.inl ⟨.errPad, by simp [exec, execUnpad, hr, hu], by decide, by decide, by decide⟩
      | some r =>
        refine Or.inr (Or.inr (Or.inr (Or.inr (Or.inr ⟨r.length, by simp [exec, execUnpad, hr, hu], ?_, by decide⟩))))
        simpa using length_unpad_le hu
    · exact Or.inl ⟨.errRange, by simp [exec, execUnpad, hr], by decide, by decide, by decide⟩

end Sys2Proof.Machine
end

