-- ==== Sys2Proof/Laws/Field.lean ====
section
/-! SUPPORT. Multiplication in the field is additive in each argument (R121, R123), and an additive byte function is known from its values
at the eight powers of `x`: with these a law about all bytes comes down to a check of eight. -/

namespace Sys2Proof.Machine

/-- Exclusive-or in another order. -/
theorem byte_xor_left_comm (a b c : Byte) : a ^^^ (b ^^^ c) = b ^^^ (a ^^^ c) := by
  rw [← BitVec.xor_assoc, BitVec.xor_comm a, BitVec.xor_assoc]

/-- Doubling is additive. -/
theorem gfXtime_xor (a b : Byte) : gfXtime (a ^^^ b) = gfXtime a ^^^ gfXtime b := by
  have carry : ∀ x : Byte, gfXtime x = (x <<< 1) ^^^ (if x.getLsbD 7 then 0x1B#8 else 0#8) := fun x => by
    unfold gfXtime; split <;> simp
  rw [carry, carry, carry, BitVec.shiftLeft_xor_distrib, BitVec.getLsbD_xor]
  cases a.getLsbD 7 <;> cases b.getLsbD 7 <;> simp [BitVec.xor_assoc, BitVec.xor_comm, byte_xor_left_comm]

/-- The loop is additive in the partial product together with the multiplicand. -/
theorem gfMulLoop_xor_left (b : Byte) (n : Nat) : ∀ (i : Nat) (p q x y : Byte),
    gfMulLoop b n i (p ^^^ q) (x ^^^ y) = gfMulLoop b n i p x ^^^ gfMulLoop b n i q y := by
  induction n with
  | zero => intros; rfl
  | succ n ih =>
    intro i p q x y
    simp only [gfMulLoop, gfXtime_xor]
    rw [← ih]
    congr 1
    split
    · simp only [BitVec.xor_assoc]; rw [byte_xor_left_comm q]
    · rfl

/-- The loop is additive in the partial product together with the multiplier. -/
theorem gfMulLoop_xor_right (b c : Byte) (n : Nat) : ∀ (i : Nat) (p q x : Byte),
    gfMulLoop (b ^^^ c) n i (p ^^^ q) x = gfMulLoop b n i p x ^^^ gfMulLoop c n i q x := by
  induction n with
  | zero => intros; rfl
  | succ n ih =>
    intro i p q x
    simp only [gfMulLoop, BitVec.getLsbD_xor]
    rw [← ih]
    congr 1
    cases b.getLsbD i <;> cases c.getLsbD i <;> simp [BitVec.xor_assoc, BitVec.xor_comm, byte_xor_left_comm]

/-- Multiplication is additive in the multiplicand. -/
theorem gfMul_xor_left (a b c : Byte) : gfMul (a ^^^ b) c = gfMul a c ^^^ gfMul b c := by
  simpa [gfMul] using gfMulLoop_xor_left c 8 0 0#8 0#8 a b

/-- Multiplication is additive in the multiplier. -/
theorem gfMul_xor_right (a b c : Byte) : gfMul a (b ^^^ c) = gfMul a b ^^^ gfMul a c := by
  simpa [gfMul] using gfMulLoop_xor_right b c 8 0 0#8 0#8 a

/-- Two additive byte functions that agree at the eight powers of `x` agree at every byte. -/
theorem additive_ext {f g : Byte → Byte} (hf : ∀ x y, f (x ^^^ y) = f x ^^^ f y) (hg : ∀ x y, g (x ^^^ y) = g x ^^^ g y)
    (h : ∀ i < 8, f (1#8 <<< i) = g (1#8 <<< i)) (x : Byte) : f x = g x := by
  have zero : ∀ k : Byte → Byte, (∀ x y, k (x ^^^ y) = k x ^^^ k y) → k 0#8 = 0#8 := fun k hk => by
    simpa using hk 0#8 0#8
  have bit : ∀ i < 8, f (if x.getLsbD i then 1#8 <<< i else 0#8) = g (if x.getLsbD i then 1#8 <<< i else 0#8) := fun i hi => by
    split
    · exact h i hi
    · rw [zero f hf, zero g hg]
  have sum : ∀ x : Byte, x = (List.range 8).foldl (fun acc i => acc ^^^ (if x.getLsbD i then 1#8 <<< i else 0#8)) 0#8 := by
    decide +kernel
  rw [sum x]
  simp only [List.range, List.range.loop, List.foldl, hf, hg]
  rw [zero f hf, zero g hg, bit 0 (by decide), bit 1 (by decide), bit 2 (by decide), bit 3 (by decide), bit 4 (by decide),
    bit 5 (by decide), bit 6 (by decide), bit 7 (by decide)]

end Sys2Proof.Machine
end

