-- ==== Sys2Proof/Laws/HostPort.lean ====
section
/-! SUPPORT. What a step does with the first action of the script, and how the register port reaches a register. -/

namespace Sys2Proof.Machine

/-- A step performs the first action of the script in the state without it. -/
theorem step_of_script {m : State} {a : HostAction} {rest : List HostAction} (h : m.script = a :: rest) :
    step m = act a { m with script := rest } := by
  simp only [step, hostStep, h]

/-- The offset of a register reaches that register. -/
theorem regAt_regOffset (r : Reg) : regAt (regOffset r) = some r := by
  cases r with
  | k j => fin_cases j <;> rfl
  | rk j => fin_cases j <;> rfl
  | s j => fin_cases j <;> rfl
  | cv j => fin_cases j <;> rfl
  | nonce j => fin_cases j <;> rfl
  | _ => rfl

@[simp] theorem portReg_regOffset (r : Reg) : portReg (regOffset r) 32 = .ok r := by
  simp [portReg, regAt_regOffset]

/-- `RD reg` observes the register's word. -/
@[simp] theorem act_rd (r : Reg) (m : State) : act (rd r) m = .next (observe (.register (readReg r m)) m) := by
  simp [act, rd, hostRegRead]

/-- `WR reg, value` on a register other than `CMD` stores the value. -/
theorem act_wr {r : Reg} (v : Word) (m : State) (h : r ≠ .cmd) : act (wr r v) m = .next (writeReg r v m) := by
  simp [act, wr, hostRegWrite, h]

/-- `WR CMD, value` executes the word. -/
@[simp] theorem act_wr_cmd (v : Word) (m : State) : act (wr .cmd v) m = runCommand v m := by
  simp [act, wr, hostRegWrite]

/-- A host access of a register reaches a listed register or is refused by name. -/
theorem portReg_cases (off bits : Nat) :
    (∃ r, portReg off bits = .ok r ∧ bits = 32 ∧ regAt off = some r) ∨
    (portReg off bits = .error (.unlistedOffset off) ∧ bits = 32 ∧ regAt off = none) ∨
    (portReg off bits = .error (.accessWidth bits) ∧ bits ≠ 32) := by
  by_cases hb : bits = 32
  · cases h : regAt off with
    | none => exact Or.inr (Or.inl ⟨by simp [portReg, hb, h], hb, rfl⟩)
    | some r => exact Or.inl ⟨r, by simp [portReg, hb, h], hb, rfl⟩
  · exact Or.inr (Or.inr ⟨by simp [portReg, hb], hb⟩)

end Sys2Proof.Machine
end

