-- ==== Sys2Proof/Laws/KeySchedule.lean ====
section
/-! SUPPORT. Where the two steps of the key schedule have a result (R171, R173, R174), and how exclusive-or on words cancels. -/

namespace Sys2Proof.Machine

/-- The forward step has a result in rounds 0..9. -/
theorem nextRoundKey_of_le (v : Block) {r : Nat} (h : r ≤ 9) :
    ∃ c, rcon (r + 1) = some c ∧ nextRoundKey v r = some (keyForward c v) := by
  have : r < rconTable.length := by simp [rconTable]; omega
  refine ⟨rconTable[r], ?_, ?_⟩ <;> simp [nextRoundKey, rcon, this]

/-- The forward step has no result from round 10 on. -/
theorem nextRoundKey_of_ge (v : Block) {r : Nat} (h : 10 ≤ r) : nextRoundKey v r = none := by
  simp [nextRoundKey, rcon, rconTable, h]

/-- The backward step has a result in rounds 1..10. -/
theorem previousRoundKey_of_mem (w : Block) {r : Nat} (h : 1 ≤ r) (h10 : r ≤ 10) :
    ∃ c, rcon r = some c ∧ previousRoundKey w r = some (keyBackward c w) := by
  obtain ⟨r, rfl⟩ : ∃ k, r = k + 1 := ⟨r - 1, by omega⟩
  have : r < rconTable.length := by simp [rconTable]; omega
  refine ⟨rconTable[r], ?_, ?_⟩ <;> simp [previousRoundKey, rcon, this]

/-- The backward step has no result in round 0 and above round 10. -/
theorem previousRoundKey_of_not_mem (w : Block) {r : Nat} (h : r = 0 ∨ 10 < r) : previousRoundKey w r = none := by
  rcases r with _ | r
  · rfl
  · have : 10 ≤ r := by omega
    simp [previousRoundKey, rcon, rconTable, this]

theorem quad_xor_comm (x y : Quad) : x.xor y = y.xor x := by simp [Quad.xor, BitVec.xor_comm]

theorem quad_xor_cancel_right (x y : Quad) : (x.xor y).xor y = x := by simp [Quad.xor]

theorem quad_xor_cancel_left (x y : Quad) : (x.xor y).xor x = y := by
  rw [quad_xor_comm x, quad_xor_cancel_right]

end Sys2Proof.Machine
end

