-- ==== Sys2Proof/Laws/Lanes.lean ====
section
/-! SUPPORT. The byte lanes of a register word (R37): a quad and its word are the same data, and what replacing one quad of a byte-string
register does to each byte. -/

namespace Sys2Proof.Machine

/-- The quad of a word, and the word again. -/
theorem laneWord_laneQuad (v : Word) : laneWord (laneQuad v) = v := by
  apply BitVec.eq_of_getLsbD_eq
  intro i hi
  simp only [laneWord, laneQuad, BitVec.getLsbD_append, BitVec.getLsbD_extractLsb']
  interval_cases i <;> simp

/-- The word of a quad, and the quad again. -/
theorem laneQuad_laneWord (q : Quad) : laneQuad (laneWord q) = q := by
  obtain ⟨a, b, c, d⟩ := q
  simp only [laneQuad, laneWord, Quad.mk.injEq]
  refine ⟨?_, ?_, ?_, ?_⟩ <;>
  · apply BitVec.eq_of_getLsbD_eq
    intro k hk
    simp only [BitVec.getLsbD_extractLsb', BitVec.getLsbD_append]
    interval_cases k <;> simp

/-- The number of a register word: byte `i` of the quad has the weight `256 ^ i`. -/
theorem toNat_laneWord (q : Quad) : (laneWord q).toNat = laneValue q := by
  obtain ⟨a, b, c, d⟩ := q
  have key : ∀ x y : Nat, y < 2 ^ 8 → x * 2 ^ 8 ||| y = x * 2 ^ 8 + y := fun x y h => by
    rw [Nat.mul_comm x, ← Nat.two_pow_add_eq_or_of_lt h]
  simp only [laneWord, laneValue, BitVec.toNat_append, Nat.shiftLeft_eq]
  rw [key _ _ c.isLt, key _ _ b.isLt, key _ _ a.isLt]
  omega

/-- Byte `k` of the quad that a word carries. -/
theorem quadByte_laneQuad (v : Word) (k : Fin 4) :
    quadByte (laneQuad v) k = BitVec.ofNat 8 (v.toNat / 256 ^ k.val) := by
  fin_cases k <;>
  · simp only [quadByte, laneQuad]
    apply BitVec.eq_of_toNat_eq
    simp [BitVec.extractLsb'_toNat, Nat.shiftRight_eq_div_pow]

/-- The quads of a block after quad `j` is replaced. -/
theorem blockQuad_setBlockQuad (x : Block) (j i : Fin 4) (q : Quad) :
    blockQuad (setBlockQuad x j q) i = if i = j then q else blockQuad x i := by
  fin_cases j <;> fin_cases i <;> rfl

/-- The quads of the nonce after quad `j` is replaced. -/
theorem nonceQuad_setNonceQuad (x : Nonce) (j i : Fin 2) (q : Quad) :
    nonceQuad (setNonceQuad x j q) i = if i = j then q else nonceQuad x i := by
  fin_cases j <;> fin_cases i <;> rfl

/-- Replacing quad `j` of a block replaces its bytes `4j` to `4j + 3`. -/
theorem blockByte_setBlockQuad (x : Block) (j : Fin 4) (q : Quad) (i : Fin 16) :
    blockByte (setBlockQuad x j q) i =
      if i.val / 4 = j.val then quadByte q ⟨i.val % 4, by omega⟩ else blockByte x i := by
  fin_cases j <;> fin_cases i <;> rfl

/-- Replacing quad `j` of the nonce replaces its bytes `4j` to `4j + 3`. -/
theorem nonceByte_setNonceQuad (x : Nonce) (j : Fin 2) (q : Quad) (i : Fin 8) :
    nonceByte (setNonceQuad x j q) i =
      if i.val / 4 = j.val then quadByte q ⟨i.val % 4, by omega⟩ else nonceByte x i := by
  fin_cases j <;> fin_cases i <;> rfl

end Sys2Proof.Machine
end

