-- ==== Sys2Proof/Laws/PerInstr.lean ====
section
/-! SUPPORT. The family of per-instruction lemmas `EncodeFields`: where the fields of an encoded command stand (R91, R92). -/

namespace Sys2Proof.Laws.EncodeFields

/-- The encoded word of a command carries its opcode in bits 7..0, its operands in bits 15..8 and 23..16, and zero in bits 31..24. -/
def Statement (i : Instr) : Prop :=
  (encode i).extractLsb' 0 8 = opcodeOf i ∧ (encode i).extractLsb' 8 8 = operandA i ∧
  (encode i).extractLsb' 16 8 = operandB i ∧ (encode i).extractLsb' 24 8 = 0#8

/-- Four bytes appended stand in the four byte fields. -/
theorem fields_of_append (z b a op : BitVec 8) :
    (z ++ b ++ a ++ op : BitVec 32).extractLsb' 0 8 = op ∧ (z ++ b ++ a ++ op : BitVec 32).extractLsb' 8 8 = a ∧
    (z ++ b ++ a ++ op : BitVec 32).extractLsb' 16 8 = b ∧ (z ++ b ++ a ++ op : BitVec 32).extractLsb' 24 8 = z := by
  refine ⟨?_, ?_, ?_, ?_⟩ <;>
  · ext k hk
    simp only [BitVec.getElem_extractLsb', BitVec.getLsbD_append]
    interval_cases k <;> simp

theorem gfmul (a b : Byte) : Statement (.gfmul a b) := fields_of_append ..
theorem gfpow (a n : Byte) : Statement (.gfpow a n) := fields_of_append ..
theorem gfinv (a : Byte) : Statement (.gfinv a) := fields_of_append ..
theorem sboxb (a : Byte) : Statement (.sboxb a) := fields_of_append ..
theorem isboxb (a : Byte) : Statement (.isboxb a) := fields_of_append ..
theorem subb : Statement .subb := fields_of_append ..
theorem isubb : Statement .isubb := fields_of_append ..
theorem shrow : Statement .shrow := fields_of_append ..
theorem ishrow : Statement .ishrow := fields_of_append ..
theorem mixc : Statement .mixc := fields_of_append ..
theorem imixc : Statement .imixc := fields_of_append ..
theorem addrk : Statement .addrk := fields_of_append ..
theorem ksload : Statement .ksload := fields_of_append ..
theorem ksnext : Statement .ksnext := fields_of_append ..
theorem ksprev : Statement .ksprev := fields_of_append ..
theorem encblk : Statement .encblk := fields_of_append ..
theorem decblk : Statement .decblk := fields_of_append ..
theorem ecb (dir : Dir) : Statement (.ecb dir) := fields_of_append ..
theorem cbce (dir : Dir) : Statement (.cbce dir) := fields_of_append ..
theorem cbcd (dir : Dir) : Statement (.cbcd dir) := fields_of_append ..
theorem ctr (dir : Dir) : Statement (.ctr dir) := fields_of_append ..
theorem pad (bs : Byte) : Statement (.pad bs) := fields_of_append ..
theorem unpad : Statement .unpad := fields_of_append ..

end Sys2Proof.Laws.EncodeFields
end

