-- ==== Sys2Proof/Laws/Tables.lean ====
section
/-! SUPPORT. The tables INV, SBOX and INV_SBOX equal their functions, and the block cipher run with a table in the place of each: the form in which a
known answer is quick to check. -/

namespace Sys2Proof.Machine

/-! ### The field inverse on numbers -/

/-- `gfXtime` on the number of a byte. -/
def natXtime (a : Nat) : Nat := Nat.xor (Nat.mul 2 a) (Nat.mul 283 (Nat.div a 128))

/-- One turn of the loop of `gfMul` on numbers: `bit` is odd where the turn adds `a` to `p`. -/
def natMulStep (bit p a : Nat) : Nat := Nat.xor p (Nat.mul (Nat.mod bit 2) a)

/-- `gfMul` on the numbers of two bytes, its loop written out, in operations that the kernel evaluates fast. -/
def natMul (b a : Nat) : Nat :=
  let a1 := natXtime a
  let a2 := natXtime a1
  let a3 := natXtime a2
  let a4 := natXtime a3
  let a5 := natXtime a4
  let a6 := natXtime a5
  let a7 := natXtime a6
  natMulStep (Nat.div b 128) (natMulStep (Nat.div b 64) (natMulStep (Nat.div b 32) (natMulStep (Nat.div b 16)
    (natMulStep (Nat.div b 8) (natMulStep (Nat.div b 4) (natMulStep (Nat.div b 2) (natMulStep b 0 a) a1) a2) a3) a4) a5) a6) a7

/-- `gfPowLoop` on numbers. -/
def natPowLoop : (digits r base n : Nat) → Nat
  | 0, r, _, _ => r
  | d + 1, r, base, n =>
    natPowLoop d (bif n % 2 == 1 then natMul base r else r) (natMul base base) (n / 2)

/-- The number of a doubled byte. -/
theorem toNat_gfXtime : ∀ a : Byte, (gfXtime a).toNat = natXtime a.toNat := by decide +kernel

/-- The number after one turn of the loop of `gfMul`. -/
theorem toNat_mulStep (b p a : Byte) (i : Nat) :
    (if b.getLsbD i then p ^^^ a else p).toNat = natMulStep (b.toNat / 2 ^ i) p.toNat a.toNat := by
  rw [BitVec.getLsbD, Nat.testBit_eq_decide_div_mod_eq]
  obtain h | h := Nat.mod_two_eq_zero_or_one (b.toNat / 2 ^ i) <;>
    simp [natMulStep, show Nat.mod (b.toNat / 2 ^ i) 2 = _ from h, h]

/-- The number of a product. -/
theorem toNat_gfMul (a b : Byte) : (gfMul a b).toNat = natMul b.toNat a.toNat := by
  simp only [gfMul, gfMulLoop, toNat_mulStep, toNat_gfXtime, natMul]
  simp
  rfl

/-- The number of a power. -/
theorem toNat_gfPowLoop (d : Nat) : ∀ (r base : Byte) (n : Nat),
    (gfPowLoop d r base n).toNat = natPowLoop d r.toNat base.toNat n := by
  induction d with
  | zero => intro r base n; rfl
  | succ d ih =>
    intro r base n
    rw [gfPowLoop, ih, natPowLoop, toNat_gfMul]
    obtain h | h := Nat.mod_two_eq_zero_or_one n <;> simp [h, toNat_gfMul]

/-- The table INV of 95_test_vectors.md section 2 holds the field inverse. -/
theorem gfInv_eq_table : gfInv = tableAt invRows := by
  funext x
  have h := (by decide +kernel : ∀ x : Byte, natPowLoop 8 1 x.toNat 254 = (tableAt invRows x).toNat) x
  exact BitVec.eq_of_toNat_eq ((toNat_gfPowLoop 8 1 x 254).trans h)

/-! ### The S-boxes -/

/-- The table SBOX of 95_test_vectors.md section 2 holds the S-box. -/
theorem sbox_eq_table : sbox = tableAt sboxRows := by
  funext x
  rw [sbox, gfInv_eq_table]
  exact (by decide +kernel : ∀ x : Byte, affine (tableAt invRows x) = tableAt sboxRows x) x

/-- The table INV_SBOX of 95_test_vectors.md section 2 holds the inverse S-box. -/
theorem invSbox_eq_table : invSbox = tableAt invSboxRows := by
  funext x
  rw [invSbox, gfInv_eq_table]
  exact (by decide +kernel : ∀ x : Byte, tableAt invRows (invAffine x) = tableAt invSboxRows x) x

/-- `keyForward` with the byte substitution as an argument. -/
def keyForwardWith (sub : Byte → Byte) (v : Block) (c : Byte) : Block :=
  let w0 := v.q0.xor ⟨sub v.q3.b1 ^^^ c, sub v.q3.b2, sub v.q3.b3, sub v.q3.b0⟩
  let w1 := v.q1.xor w0
  let w2 := v.q2.xor w1
  ⟨w0, w1, w2, v.q3.xor w2⟩

/-- `keyBackward` with the byte substitution as an argument. -/
def keyBackwardWith (sub : Byte → Byte) (w : Block) (c : Byte) : Block :=
  let v3 := w.q3.xor w.q2
  ⟨w.q0.xor ⟨sub v3.b1 ^^^ c, sub v3.b2, sub v3.b3, sub v3.b0⟩, w.q1.xor w.q0, w.q2.xor w.q1, v3⟩

/-- `encryptBlock` with the byte substitution as an argument. -/
def encryptWith (sub : Byte → Byte) (p k : Block) : Block :=
  let round := fun (x : CipherState) (c : Byte) =>
    let ks := keyForwardWith sub x.ks c
    (⟨addRoundKey (mixColumns (shiftRows (columnMap (quadMap sub) x.s))) ks, ks⟩ : CipherState)
  let x := fullRoundConstants.foldl round ⟨addRoundKey p k, k⟩
  addRoundKey (shiftRows (columnMap (quadMap sub) x.s)) (keyForwardWith sub x.ks finalRoundConstant)

/-- `decryptBlock` with the two byte substitutions as arguments. -/
def decryptWith (sub inv : Byte → Byte) (c k : Block) : Block :=
  let last := rconTable.foldl (fun ks c => keyForwardWith sub ks c) k
  let round := fun (x : CipherState) (c : Byte) =>
    let ks := keyBackwardWith sub x.ks c
    (⟨columnMap (quadMap inv) (invShiftRows (invMixColumns (addRoundKey x.s ks))), ks⟩ : CipherState)
  let x := undoRoundConstants.foldl round ⟨columnMap (quadMap inv) (invShiftRows (addRoundKey c last)), last⟩
  addRoundKey x.s (keyBackwardWith sub x.ks undoLastConstant)

theorem keyForward_eq_table (c : Byte) (v : Block) : keyForward c v = keyForwardWith (tableAt sboxRows) v c := by
  rw [← sbox_eq_table]; rfl

theorem keyBackward_eq_table (c : Byte) (w : Block) : keyBackward c w = keyBackwardWith (tableAt sboxRows) w c := by
  rw [← sbox_eq_table]; rfl

/-- Encryption with the table SBOX. -/
theorem encryptBlock_eq_table (p k : Block) : encryptBlock p k = encryptWith (tableAt sboxRows) p k := by
  rw [← sbox_eq_table]; rfl

/-- Decryption with the tables SBOX and INV_SBOX. -/
theorem decryptBlock_eq_table (c k : Block) :
    decryptBlock c k = decryptWith (tableAt sboxRows) (tableAt invSboxRows) c k := by
  rw [← sbox_eq_table, ← invSbox_eq_table]; rfl

/-- The block transform of `dir = 0` with the table SBOX. -/
theorem blockTransform_forward_eq_table (k : Block) :
    blockTransform .forward k = fun x => encryptWith (tableAt sboxRows) x k :=
  funext fun x => encryptBlock_eq_table x k

/-- The block transform of `dir = 1` with the tables SBOX and INV_SBOX. -/
theorem blockTransform_inverse_eq_table (k : Block) :
    blockTransform .inverse k = fun x => decryptWith (tableAt sboxRows) (tableAt invSboxRows) x k :=
  funext fun x => decryptBlock_eq_table x k

end Sys2Proof.Machine
end

