-- ==== Sys2Proof/Tests/Slice0.lean ====
section
/-! SUPPORT. The model's own tests: what `wellFormed` refuses, words written out from the spec's encodings, one step of each command against
a value of 95_test_vectors.md, and for each statement with hypotheses a case that meets them all. -/

namespace Sys2Proof.Tests

open Sys2Proof Sys2Proof.Machine

-- One theorem after the other: elaborated side by side, each would hold a thread while it waits for the kernel.
set_option Elab.async false

/-! ### Helpers -/

/-- The reset state with a script. -/
def scripted (script : List HostAction) : State := { State.reset with script := script }

/-- A part of the state that a result answers. -/
def part {α : Type} (f : State → α) (r : Result) : Option α :=
  match r with
  | .next t => some (f t)
  | .fault _ => none
  | .refused _ => none

/-- The reset state with `S` and `RK` set. -/
def blockState (s rk : Nat) : State := { State.reset with s := blockOfHex s, rk := blockOfHex rk }

/-- The reset state with `RK` and `RND` set. -/
def roundState (rk : Nat) (rnd : BitVec 4) : State := { State.reset with rk := blockOfHex rk, rnd := rnd }

/-- A state with the key of FIPS-197 appendix B, a chaining value, a nonce, the bytes `input` at address 0 and the registers `SRC` = 0,
`DST` = `dst`, `LEN` = the length of `input`. -/
def bufferState (dst : Word) (input : List Byte) : State :=
  { State.reset with
    k := blockOfHex 0x2b7e151628aed2a6abf7158809cf4f3c
    cv := blockOfHex 0x000102030405060708090a0b0c0d0e0f
    nonce := nonceOfHex 0xf0f1f2f3f4f5f6f7
    dst := dst
    len := BitVec.ofNat 32 input.length
    mem := Memory.writeBytes [] 0 input }

/-- The status and the length of a buffer command's result, and the `n` bytes at `DST`. -/
def bufferResult (n : Nat) (m : State) : StatusCode × Word × List Byte :=
  (m.status, m.rlen, Memory.readBytes m.mem m.dst.toNat n)

/-! ### What `wellFormed` refuses (R92, R94) -/

theorem test_pad_zero_is_ill_formed : wellFormed (.pad 0#8) = false := by decide

theorem test_pad_one_is_well_formed : wellFormed (.pad 1#8) = true := by decide

/-! ### Decoding: words written out from R91 and R93, and the words of 95_test_vectors.md section 9 -/

/-- What the decoder reads from a word. -/
def decoded (w : Word) : Option Instr := decodeTableWord 32 w.toNat

theorem test_decode_gfmul : decoded 0b00000000_10000011_01010111_00000001#32 = some (.gfmul 0x57#8 0x83#8) := by decide
theorem test_decode_gfpow : decoded 0b00000000_11111110_01010011_00000010#32 = some (.gfpow 0x53#8 254#8) := by decide
theorem test_decode_gfinv : decoded 0b00000000_00000000_01010011_00000011#32 = some (.gfinv 0x53#8) := by decide
theorem test_decode_sboxb : decoded 0b00000000_00000000_01010011_00010000#32 = some (.sboxb 0x53#8) := by decide
theorem test_decode_isboxb : decoded 0b00000000_00000000_11101101_00010001#32 = some (.isboxb 0xED#8) := by decide
theorem test_decode_subb : decoded 0b00000000_00000000_00000000_00010010#32 = some .subb := by decide
theorem test_decode_isubb : decoded 0b00000000_00000000_00000000_00010011#32 = some .isubb := by decide
theorem test_decode_shrow : decoded 0b00000000_00000000_00000000_00010100#32 = some .shrow := by decide
theorem test_decode_ishrow : decoded 0b00000000_00000000_00000000_00010101#32 = some .ishrow := by decide
theorem test_decode_mixc : decoded 0b00000000_00000000_00000000_00010110#32 = some .mixc := by decide
theorem test_decode_imixc : decoded 0b00000000_00000000_00000000_00010111#32 = some .imixc := by decide
theorem test_decode_addrk : decoded 0b00000000_00000000_00000000_00011000#32 = some .addrk := by decide
theorem test_decode_ksload : decoded 0b00000000_00000000_00000000_00100000#32 = some .ksload := by decide
theorem test_decode_ksnext : decoded 0b00000000_00000000_00000000_00100001#32 = some .ksnext := by decide
theorem test_decode_ksprev : decoded 0b00000000_00000000_00000000_00100010#32 = some .ksprev := by decide
theorem test_decode_encblk : decoded 0b00000000_00000000_00000000_00110000#32 = some .encblk := by decide
theorem test_decode_decblk : decoded 0b00000000_00000000_00000000_00110001#32 = some .decblk := by decide
theorem test_decode_ecb : decoded 0b00000000_00000000_00000001_01000000#32 = some (.ecb .inverse) := by decide
theorem test_decode_cbce : decoded 0b00000000_00000000_00000000_01000001#32 = some (.cbce .forward) := by decide
theorem test_decode_cbcd : decoded 0b00000000_00000000_00000001_01000010#32 = some (.cbcd .inverse) := by decide
theorem test_decode_ctr : decoded 0b00000000_00000000_00000000_01000011#32 = some (.ctr .forward) := by decide
theorem test_decode_pad : decoded 0b00000000_00000000_00010000_01010000#32 = some (.pad 16#8) := by decide
theorem test_decode_unpad : decoded 0b00000000_00000000_00000000_01010001#32 = some .unpad := by decide

/-- The reserved words of 95_test_vectors.md section 9 decode to nothing. -/
theorem test_reserved_words :
    [0x00000000#32, 0x01835701#32, 0x00015303#32, 0x00000112#32, 0x00000019#32, 0x00000240#32, 0x00000050#32, 0x00011050#32,
      0x00000151#32, 0x000000FF#32, 0xFFFFFFFF#32, 0x80000012#32].all (fun w => decoded w == none) = true := by decide

/-- A table word shorter than a command has zeros above its bits. -/
theorem test_table_word_masks : decodeTableWord 8 0xFF51 = some .unpad := by decide

/-! ### One step of each command (values of 95_test_vectors.md sections 2 to 8) -/

theorem test_gfmul : part (·.fr) (exec (.gfmul 0x57#8 0x83#8) State.reset) = some 0xC1#8 := by decide +kernel
theorem test_gfpow : part (·.fr) (exec (.gfpow 0x53#8 254#8) State.reset) = some 0xCA#8 := by decide +kernel
theorem test_gfpow_zero : part (·.fr) (exec (.gfpow 0x00#8 0#8) State.reset) = some 0x01#8 := by decide +kernel
theorem test_gfinv : part (·.fr) (exec (.gfinv 0xFE#8) State.reset) = some 0x41#8 := by decide +kernel
theorem test_sboxb : part (·.fr) (exec (.sboxb 0xCA#8) State.reset) = some 0x74#8 := by decide +kernel
theorem test_isboxb : part (·.fr) (exec (.isboxb 0x53#8) State.reset) = some 0x50#8 := by decide +kernel

theorem test_subb : part (·.s) (exec .subb (blockState 0x193de3bea0f4e22b9ac68d2ae9f84808 0)) =
    some (blockOfHex 0xd42711aee0bf98f1b8b45de51e415230) := by
  simp only [exec, execSubb, subBytes, sbox_eq_table]; decide +kernel
theorem test_isubb : part (·.s) (exec .isubb (blockState 0x193de3bea0f4e22b9ac68d2ae9f84808 0)) =
    some (blockOfHex 0x8e8b4d5a47ba3b0b37c7b495ebe1d4bf) := by
  simp only [exec, execIsubb, invSubBytes, invSbox_eq_table]; decide +kernel
theorem test_shrow : part (·.s) (exec .shrow (blockState 0x193de3bea0f4e22b9ac68d2ae9f84808 0)) =
    some (blockOfHex 0x19f48d08a0c648be9af8e32be93de22a) := by decide +kernel
theorem test_ishrow : part (·.s) (exec .ishrow (blockState 0x193de3bea0f4e22b9ac68d2ae9f84808 0)) =
    some (blockOfHex 0x19f88d2ba03d482a9af4e308e9c6e2be) := by decide +kernel
theorem test_mixc : part (·.s) (exec .mixc (blockState 0x193de3bea0f4e22b9ac68d2ae9f84808 0)) =
    some (blockOfHex 0x28e320929545f6bbd9ab23aa9ad29980) := by decide +kernel
theorem test_imixc : part (·.s) (exec .imixc (blockState 0x193de3bea0f4e22b9ac68d2ae9f84808 0)) =
    some (blockOfHex 0x083c004d0290616e1cafe6ae968195d3) := by decide +kernel
theorem test_addrk :
    part (·.s) (exec .addrk (blockState 0x3243f6a8885a308d313198a2e0370734 0x2b7e151628aed2a6abf7158809cf4f3c)) =
    some (blockOfHex 0x193de3bea0f4e22b9ac68d2ae9f84808) := by decide +kernel

theorem test_ksload : part (fun t => (t.rk, t.rnd)) (exec .ksload { roundState 0 7#4 with k := blockOfHex 0x0f0e }) =
    some (blockOfHex 0x0f0e, 0#4) := by decide +kernel
theorem test_ksnext : part (fun t => (t.rk, t.rnd, t.status)) (exec .ksnext (roundState 0x00112233445566778899aabbccddeeff 9#4)) =
    some (blockOfHex 0xf7393478b36c520f3bf5f8b4f728164b, 10#4, .ok) := by decide +kernel
theorem test_ksnext_at_ten : part (fun t => (t.rnd, t.status)) (exec .ksnext (roundState 0 10#4)) = some (10#4, .errRnd) := by
  decide +kernel
theorem test_ksprev : part (fun t => (t.rk, t.rnd, t.status)) (exec .ksprev (roundState 0x00112233445566778899aabbccddeeff 1#4)) =
    some (blockOfHex 0x1a0a392844444444cccccccc44444444, 0#4, .ok) := by decide +kernel
theorem test_ksprev_at_zero : part (fun t => (t.rnd, t.status)) (exec .ksprev (roundState 0 0#4)) = some (0#4, .errRnd) := by
  decide +kernel

theorem test_encblk : part (·.s) (exec .encblk (blockState 0 0)) = some (blockOfHex 0x66e94bd4ef8a2c3b884cfa59ca342b2e) := by
  simp only [exec, execEncblk, encryptBlock_eq_table]; decide +kernel
theorem test_decblk : part (·.s) (exec .decblk (blockState 0 0)) = some (blockOfHex 0x140f0f1011b5223d79587717ffd9ec3a) := by
  simp only [exec, execDecblk, decryptBlock_eq_table]; decide +kernel

theorem test_ecb : part (bufferResult 16) (exec (.ecb .forward) (bufferState 8#32 (bytesOfHex 16 0x6bc1bee22e409f96e93d7e117393172a))) =
    some (.ok, 16#32, bytesOfHex 16 0x3ad77bb40d7a3660a89ecaf32466ef97) := by
  simp only [exec, execEcb, blockTransform_forward_eq_table]; decide +kernel
theorem test_ecb_bad_length : part (bufferResult 0) (exec (.ecb .forward) (bufferState 0#32 (bytesOfHex 15 0))) =
    some (.errLen, 0#32, []) := by decide +kernel
theorem test_cbce : part (bufferResult 16) (exec (.cbce .forward) (bufferState 16#32 (bytesOfHex 16 0x6bc1bee22e409f96e93d7e117393172a))) =
    some (.ok, 16#32, bytesOfHex 16 0x7649abac8119b246cee98e9b12e9197d) := by
  simp only [exec, execCbce, blockTransform_forward_eq_table]; decide +kernel
theorem test_cbcd : part (bufferResult 16) (exec (.cbcd .inverse) (bufferState 0#32 (bytesOfHex 16 0x7649abac8119b246cee98e9b12e9197d))) =
    some (.ok, 16#32, bytesOfHex 16 0x6bc1bee22e409f96e93d7e117393172a) := by
  simp only [exec, execCbcd, blockTransform_inverse_eq_table]; decide +kernel
theorem test_ctr : part (bufferResult 4) (exec (.ctr .forward) (bufferState 0#32 (bytesOfHex 4 0x6bc1bee2))) =
    some (.ok, 4#32, bytesOfHex 4 0x67ee0554) := by
  simp only [exec, execCtr, blockTransform_forward_eq_table]; decide +kernel
theorem test_ctr_out_of_range : part (bufferResult 0) (exec (.ctr .forward) (bufferState 255#32 (bytesOfHex 2 0))) =
    some (.errRange, 0#32, []) := by decide +kernel

theorem test_pad : part (bufferResult 16) (exec (.pad 16#8) (bufferState 2#32 (bytesOfHex 5 0x0102030405))) =
    some (.ok, 16#32, bytesOfHex 16 0x01020304050b0b0b0b0b0b0b0b0b0b0b) := by decide +kernel
theorem test_pad_full_block : part (bufferResult 8) (exec (.pad 4#8) (bufferState 0#32 (bytesOfHex 4 0xaabbccdd))) =
    some (.ok, 8#32, bytesOfHex 8 0xaabbccdd04040404) := by decide +kernel
theorem test_unpad : part (bufferResult 0) (exec .unpad (bufferState 0#32 (bytesOfHex 4 0xaa030303))) = some (.ok, 1#32, []) := by
  decide +kernel
theorem test_unpad_unequal : part (bufferResult 0) (exec .unpad (bufferState 0#32 (bytesOfHex 4 0xaabb0303))) =
    some (.errPad, 0#32, []) := by decide +kernel

/-! ### The step -/

/-- The word placed for the next step runs at once (R31): `GFMUL 0x57, 0x83` from reset. -/
theorem test_step_runs_fetch_word :
    part (fun t => (t.fr, t.cmd, t.script)) (step (State.reset.withFetchWord 32 0x00835701)) = some (0xC1#8, 0x00835701#32, []) := by
  decide +kernel

/-- A read of `CMD` after a reserved word returns that word (R31, R94). -/
theorem test_reserved_word_reads_back :
    part (·.observed) (Sys2Proof.core.run 3 (scripted [wr .cmd 0xFFFFFFFF#32, rd .cmd, rd .status])) =
      some [.register 0xFFFFFFFF#32, .register 3#32] := by decide +kernel

/-- `STATUS` takes no write (R38). -/
theorem test_status_is_read_only :
    part (·.status) (step (scripted [wr .status 5#32])) = some .ok := by decide +kernel

/-- An access below 32 bits is refused (R261). -/
theorem test_narrow_access_is_refused : step (scripted [.regRead 0x04 8]) = .refused (.accessWidth 8) := rfl

/-- A `RESET` leaves the image's key and clears `RND` (R39). -/
theorem test_reset_action :
    part (fun t => (t.k, t.rnd, t.mem))
      (step { roundState 0 7#4 with script := [.reset ⟨blockOfHex 5, zeroBlock, zeroBlock, zeroBlock, zeroNonce, [(256, 1#8), (3, 9#8)]⟩] }) =
    some (blockOfHex 5, 0#4, [(3, 9#8)]) := by decide +kernel

/-! ### Cases that meet the hypotheses of the statements

Each theorem is named after its statement. A statement with several clauses has a case for each, at the ends of its range. -/

theorem witness_DecodeUndoesEncode : wellFormed (.pad 1#8) = true ∧ wellFormed (.pad 255#8) = true ∧ wellFormed .unpad = true := by decide

theorem witness_EncodeUndoesDecode : decode 0x0000FF50#32 = .ok (.pad 255#8) ∧ decode 0x00FFFF01#32 = .ok (.gfmul 255#8 255#8) := ⟨rfl, rfl⟩

theorem witness_ReservedWordFailsWithErrCmd :
    (∀ w, (scripted [wr .cmd w]).script = wr .cmd w :: []) ∧ (∀ r ∈ opcodeRows, rowMatches r 0x00000000#32 = false) ∧
    (∀ r ∈ opcodeRows, rowMatches r 0x00000050#32 = false) ∧ (∀ r ∈ opcodeRows, rowMatches r 0x01835701#32 = false) :=
  ⟨fun _ => rfl, by decide, by decide, by decide⟩

theorem witness_CmdWriteRunsDecodedCommand :
    (scripted [wr .cmd 0x00000051#32]).script = wr .cmd 0x00000051#32 :: [] ∧ decode 0x00000051#32 = .ok .unpad := ⟨rfl, rfl⟩

/-- A word that decodes, a word that does not, a read of `CMD`, and a step that is neither a write to `CMD` nor a reset. -/
theorem witness_CmdReadsBackLastWordWritten :
    (∀ w, (scripted [wr .cmd w]).script = wr .cmd w :: []) ∧ decode 0x00000051#32 = .ok .unpad ∧ decode 0x00000000#32 = .error .opcode ∧
    (scripted [rd .cmd]).script = rd .cmd :: [] ∧
    ((∃ t, step (scripted [wr .src 1#32]) = .next t) ∧ (∀ w rest, (scripted [wr .src 1#32]).script ≠ wr .cmd w :: rest) ∧
      ∀ image rest, (scripted [wr .src 1#32]).script ≠ .reset image :: rest) := by
  refine ⟨fun _ => rfl, rfl, rfl, rfl, ⟨_, rfl⟩, fun w rest h => ?_, fun image rest h => ?_⟩ <;> simp [scripted, wr, regOffset] at h

/-- Every register can be written and read by a script, and the offsets beside the map are not in it. -/
theorem witness_HostAccessRules (v : Word) :
    (∀ r, (scripted [wr r v]).script = wr r v :: [] ∧ (scripted [rd r]).script = rd r :: []) ∧
    (∀ off, (scripted [.regRead off 32]).script = .regRead off 32 :: [] ∧ (scripted [.regWrite off 32 v]).script = .regWrite off 32 v :: []) ∧
    (0x68 ≤ 0x68 ∨ 0x68 % 4 ≠ 0) ∧ (0x68 ≤ 0x01 ∨ 0x01 % 4 ≠ 0) ∧ (0x68 ≤ 0x67 ∨ 0x67 % 4 ≠ 0) := by
  refine ⟨fun _ => ⟨rfl, rfl⟩, fun _ => ⟨rfl, rfl⟩, by decide, by decide, by decide⟩

theorem witness_ByteLanesAreLittleEndian (v : Word) :
    ∀ r : Reg, (scripted [rd r]).script = rd r :: [] ∧ (scripted [wr r v]).script = wr r v :: [] := fun _ => ⟨rfl, rfl⟩

theorem witness_BufferPortMovesOneByte :
    (∀ a ∈ [0, 255], a < (scripted [.bufRead a]).memBytes ∧ a < (scripted [.bufWrite a 1#8]).memBytes) ∧
    (∀ a ∈ [256, 4294967296], (scripted [.bufRead a]).memBytes ≤ a ∧ (scripted [.bufWrite a 1#8]).memBytes ≤ a) ∧
    (∀ a, (scripted [.bufRead a]).script = .bufRead a :: [] ∧ (scripted [.bufWrite a 1#8]).script = .bufWrite a 1#8 :: []) ∧
    State.reset.Inv ∧ 0 < State.reset.memBytes ∧ 255 < State.reset.memBytes ∧ 0 ≠ 255 :=
  ⟨by decide, by decide, fun _ => ⟨rfl, rfl⟩, ⟨rfl, rfl⟩, by decide, by decide, by decide⟩

/-- Both directions: a malformed action of each kind, and a well-formed one. -/
theorem witness_MalformedActionsAreRefused :
    (∀ a : HostAction, (scripted [a]).script = a :: []) ∧
    (∀ a ∈ [HostAction.regRead 0x68 32, .regWrite 0x00 16 0#32, .bufRead 256, .bufWrite 256 0#8],
      malformed State.reset.memBytes a = true) ∧
    (∀ a ∈ [HostAction.regRead 0x64 32, .regWrite 0x00 32 0#32, .bufRead 255, .bufWrite 255 0#8],
      malformed State.reset.memBytes a = false) := ⟨fun _ => rfl, by decide, by decide⟩

theorem witness_IdleCoreKeepsItsState : State.reset.script = [] := rfl

/-- An image with the highest address of the reset state's buffer space. -/
theorem witness_ResetActionZeroesControlRegisters :
    let image : ResetImage := ⟨zeroBlock, zeroBlock, zeroBlock, zeroBlock, zeroNonce, [(0, 1#8), (255, 2#8)]⟩
    (scripted [.reset image]).script = .reset image :: [] ∧ Memory.wf image.mem = true ∧
      Memory.within (scripted [.reset image]).memBytes image.mem = true := ⟨rfl, rfl, rfl⟩

/-- Each script alone, and a buffer that ends at the last address. -/
theorem witness_PseudoInstructionsExpand :
    (∀ x : Block, (scripted (scriptLdblk .k x)).script = scriptLdblk .k x ++ [] ∧ (scripted (scriptLdblk .rk x)).script = scriptLdblk .rk x ++ [] ∧
      (scripted (scriptLdblk .s x)).script = scriptLdblk .s x ++ [] ∧ (scripted (scriptLdblk .cv x)).script = scriptLdblk .cv x ++ []) ∧
    (∀ n : Nonce, (scripted (scriptLdnonce n)).script = scriptLdnonce n ++ []) ∧
    (254 + [1#8, 2#8].length ≤ (scripted (scriptWrbuf 254 [1#8, 2#8])).memBytes ∧
      (scripted (scriptWrbuf 254 [1#8, 2#8])).script = scriptWrbuf 254 [1#8, 2#8] ++ []) ∧
    [1#8, 2#8][1]? = some 2#8 ∧
    (∀ s d l : Word, (scripted (scriptSetbuf s d l)).script = scriptSetbuf s d l ++ []) :=
  ⟨fun _ => ⟨rfl, rfl, rfl, rfl⟩, fun _ => rfl, ⟨by decide, rfl⟩, rfl, fun _ _ _ => rfl⟩

theorem witness_StepKeepsMemoryCanonical :
    (scripted [.bufWrite 255 7#8]).Inv ∧ ∃ t, step (scripted [.bufWrite 255 7#8]) = .next t := ⟨⟨rfl, rfl⟩, _, rfl⟩

theorem witness_EqualReadsMeanEqualMemories :
    Memory.wf [(0, 1#8), (255, 2#8)] = true ∧ ∀ a, Memory.read [(0, 1#8), (255, 2#8)] a = Memory.read [(0, 1#8), (255, 2#8)] a :=
  ⟨by decide, fun _ => rfl⟩

/-- A step of each kind of action, and the idle step. -/
theorem witness_StepPerformsOneHostAction :
    ∀ a ∈ [HostAction.regRead 0x00 32, .bufRead 0, .bufWrite 0 1#8, .regWrite 0x08 32 5#32],
      (∃ t, step (scripted [a]) = .next t) ∧ ∃ t, step State.reset = .next t := by
  intro a ha
  simp only [List.mem_cons, List.not_mem_nil, or_false] at ha
  rcases ha with rfl | rfl | rfl | rfl <;> exact ⟨⟨_, rfl⟩, _, rfl⟩

theorem witness_CommandsLeaveHostRegistersAlone : ∃ t, exec .shrow State.reset = .next t := ⟨_, rfl⟩

/-- A command that changes `FR`, one that changes `S`, one that changes `RND`, one that changes `RLEN` and a byte of `MEM`. -/
theorem witness_CommandsWriteOnlyTheirColumns :
    (∃ t, exec (.gfmul 1#8 1#8) State.reset = .next t ∧ t.fr ≠ State.reset.fr) ∧
    (∃ t, exec .addrk (blockState 0 1) = .next t ∧ t.s ≠ (blockState 0 1).s) ∧
    (∃ t, exec .ksload (roundState 0 1#4) = .next t ∧ t.rnd ≠ (roundState 0 1#4).rnd) ∧
    (∃ t, exec (.pad 1#8) State.reset = .next t ∧ t.rlen ≠ State.reset.rlen ∧ Memory.read t.mem 0 ≠ Memory.read State.reset.mem 0) :=
  ⟨⟨_, rfl, by decide +kernel⟩, ⟨_, rfl, by decide +kernel⟩, ⟨_, rfl, by decide +kernel⟩, ⟨_, rfl, by decide +kernel, by decide +kernel⟩⟩

theorem witness_StatusHoldsTheLastOutcome (v : Word) :
    ((∃ t, step (scripted [rd .status]) = .next t) ∧ (∀ w rest, (scripted [rd .status]).script ≠ wr .cmd w :: rest) ∧
      ∀ image rest, (scripted [rd .status]).script ≠ .reset image :: rest) ∧
    (scripted [wr .status v]).script = wr .status v :: [] := by
  refine ⟨⟨⟨_, rfl⟩, fun w rest h => ?_, fun image rest h => ?_⟩, rfl⟩ <;> simp [scripted, wr, rd] at h

theorem witness_InfallibleCommandsEndOk :
    ∀ op ∈ [opcodeOf (.gfmul 0#8 0#8), opcodeOf .decblk], op ∈ [0x01#8, 0x02#8, 0x03#8, 0x10#8, 0x11#8, 0x12#8, 0x13#8, 0x14#8, 0x15#8,
      0x16#8, 0x17#8, 0x18#8, 0x20#8, 0x30#8, 0x31#8] := by decide

theorem witness_FailedCommandChangesNothingElse :
    (∃ t, exec .ksprev State.reset = .next t ∧ t.status ≠ .ok) ∧ (∃ t, exec .unpad State.reset = .next t ∧ t.status ≠ .ok) ∧
    decode 0x00000000#32 = .error .opcode := ⟨⟨_, rfl, by decide +kernel⟩, ⟨_, rfl, by decide +kernel⟩, rfl⟩

/-- A well-formed command that ends with each code. -/
theorem witness_FirstFailingCheckDecidesTheCode :
    decode 0x00000000#32 = .error .opcode ∧
    part (·.status) (exec (.ecb .forward) { State.reset with len := 15#32, src := 250#32 }) = some .errLen ∧
    part (·.status) (exec (.ecb .forward) { State.reset with len := 16#32, src := 241#32 }) = some .errRange ∧
    part (·.status) (exec .unpad State.reset) = some .errPad ∧
    part (·.status) (exec .ksnext (roundState 0 10#4)) = some .errRnd ∧ part (·.status) (exec .ksprev (roundState 0 11#4)) = some .errRnd ∧
    wellFormed (.ecb .forward) = true ∧ wellFormed .unpad = true ∧ wellFormed .ksnext = true ∧ wellFormed .ksprev = true :=
  ⟨rfl, by decide +kernel, by decide +kernel, by decide +kernel, by decide +kernel, by decide +kernel, rfl, rfl, rfl, rfl⟩

theorem witness_FieldCommandsWriteFr :
    (((0x01000001#32 : Word).extractLsb' 0 8 = 0x01#8 ∨ (0x01000001#32 : Word).extractLsb' 0 8 = 0x02#8) ∧
      (0x01000001#32 : Word).extractLsb' 24 8 ≠ 0#8) ∧
    (((0x80000002#32 : Word).extractLsb' 0 8 = 0x01#8 ∨ (0x80000002#32 : Word).extractLsb' 0 8 = 0x02#8) ∧
      (0x80000002#32 : Word).extractLsb' 24 8 ≠ 0#8) ∧ (1#8 : Byte) ≠ 0#8 ∧ (255#8 : Byte) ≠ 0#8 := by decide

theorem witness_FieldLaws : gfMul 0#8 255#8 = 0#8 ∧ gfMul 255#8 0#8 = 0#8 ∧ (1#8 : Byte) ≠ 0#8 := by decide +kernel

theorem witness_MultiplicationIsThePolynomialProduct :
    ∃ poly : Byte → Polynomial (ZMod 2), ∀ a, poly a = ∑ i ∈ Finset.range 8, if a.getLsbD i then Polynomial.X ^ i else 0 :=
  ⟨_, fun _ => rfl⟩

theorem witness_PowerIsTheRepeatedProduct : 1 ≤ 1 ∧ 1 ≤ 1000 := by decide

theorem witness_AddRoundKeyCommand : (blockState 5 0).rk = blockOfHex 0 := rfl

/-- The ends of the range of round constants, and the places beside them. -/
theorem witness_KeyStepsChainTheWords :
    (1 ≤ 1 ∧ 1 ≤ 10) ∧ (1 ≤ 10 ∧ 10 ≤ 10) ∧ (0 = 0 ∨ 10 < 0) ∧ (11 = 0 ∨ 10 < 11) ∧
    (∀ r ∈ [0, 9], ∃ c w, rcon (r + 1) = some c ∧ nextRoundKey zeroBlock r = some w) ∧
    (∀ r ∈ [1, 10], ∃ c v, rcon r = some c ∧ previousRoundKey zeroBlock r = some v) := by
  refine ⟨by decide, by decide, by decide, by decide, fun r hr => ?_, fun r hr => ?_⟩
  · obtain ⟨c, h1, h2⟩ := nextRoundKey_of_le zeroBlock (r := r) (by simp at hr; omega)
    exact ⟨c, _, h1, h2⟩
  · obtain ⟨c, h1, h2⟩ := previousRoundKey_of_mem zeroBlock (r := r) (by simp at hr; omega) (by simp at hr; omega)
    exact ⟨c, _, h1, h2⟩

theorem witness_KeyStepsAreInverse : 0 ≤ 9 ∧ 9 ≤ 9 ∧ (1 ≤ 1 ∧ 1 ≤ 10) ∧ (1 ≤ 10 ∧ 10 ≤ 10) := by decide

theorem witness_KsnextStepsForward :
    (∀ r ∈ [0#4, 9#4], (roundState 0 r).rnd.toNat < 10) ∧ (∀ r ∈ [10#4, 15#4], 10 ≤ (roundState 0 r).rnd.toNat) := by decide

/-- The ends of each range, and the two orders of the two commands, at the last round and at the first. -/
theorem witness_KsprevStepsBackward :
    (∀ r ∈ [1#4, 10#4], 1 ≤ (roundState 0 r).rnd.toNat ∧ (roundState 0 r).rnd.toNat ≤ 10) ∧
    (∀ r ∈ [0#4, 11#4, 15#4], (roundState 0 r).rnd.toNat = 0 ∨ 10 < (roundState 0 r).rnd.toNat) ∧
    (∃ t u, exec .ksnext (roundState 0 9#4) = .next t ∧ t.status = .ok ∧ exec .ksprev t = .next u) ∧
    (∃ t u, exec .ksprev (roundState 0 1#4) = .next t ∧ t.status = .ok ∧ exec .ksnext t = .next u) :=
  ⟨by decide, by decide, ⟨_, _, rfl, rfl, rfl⟩, ⟨_, _, rfl, rfl, rfl⟩⟩

/-- Every key has its eleven round keys. -/
theorem roundKeys_exist (k : Block) : ∃ rks : Nat → Block, ∀ r, r ≤ 10 → roundKey k r = some (rks r) := by
  have key : ∀ r, r ≤ 10 → (roundKey k r).isSome = true := by
    intro r
    induction r with
    | zero => intro _; rfl
    | succ r ih =>
      intro h
      obtain ⟨rk, hrk⟩ := Option.isSome_iff_exists.1 (ih (by omega))
      obtain ⟨c, -, h2⟩ := nextRoundKey_of_le rk (r := r) (by omega)
      simp [roundKey, hrk, h2]
  exact ⟨fun r => (roundKey k r).getD zeroBlock, fun r h => by
    obtain ⟨x, hx⟩ := Option.isSome_iff_exists.1 (key r h)
    simp [hx]⟩

theorem witness_EncryptionWhitensWithTheRoundKeys : ∃ rks : Nat → Block, ∀ r, r ≤ 10 → roundKey zeroBlock r = some (rks r) :=
  roundKeys_exist zeroBlock

theorem witness_DecryptionUndoesTheRoundsInReverse : ∃ rks : Nat → Block, ∀ r, r ≤ 10 → roundKey zeroBlock r = some (rks r) :=
  roundKeys_exist zeroBlock

theorem witness_BlockCipherCommands :
    (∃ t u, exec .encblk State.reset = .next t ∧ exec .decblk t = .next u) ∧
    (∃ t u, exec .decblk State.reset = .next t ∧ exec .encblk t = .next u) := ⟨⟨_, _, rfl, rfl⟩, ⟨_, _, rfl, rfl⟩⟩

/-- A length of one block in range up to the last address, the same one address further, a length beside a multiple of 16, no bytes at the
end of the buffer space, and two blocks. -/
theorem witness_block_modes (d : Dir) : ∀ i ∈ [Instr.ecb d, .cbce d, .cbcd d],
    (16#32 : Word).toNat % 16 = 0 ∧ buffersInRange { State.reset with src := 240#32, dst := 240#32, len := 16#32 } i ∧
    ¬buffersInRange { State.reset with src := 240#32, dst := 241#32, len := 16#32 } i ∧ (17#32 : Word).toNat % 16 ≠ 0 ∧
    (15#32 : Word).toNat % 16 ≠ 0 ∧ buffersInRange { State.reset with src := 256#32, dst := 256#32, len := 0#32 } i ∧
    buffersInRange { State.reset with len := 32#32 } i ∧ (32#32 : Word).toNat % 16 = 0 ∧ 16 * (0 + 1) < (32#32 : Word).toNat ∧
    16 * 0 < (16#32 : Word).toNat := by
  intro i hi
  simp only [List.mem_cons, List.not_mem_nil, or_false] at hi
  rcases hi with rfl | rfl | rfl <;> simp only [buffersInRange] <;> decide

theorem witness_EcbTransformsEachBlock (d : Dir) :
    (16#32 : Word).toNat % 16 = 0 ∧ buffersInRange { State.reset with src := 240#32, dst := 240#32, len := 16#32 } (.ecb d) :=
  ⟨rfl, (witness_block_modes d _ (by simp)).2.1⟩

/-- The reset state with a buffer of two blocks. -/
def twoBlocks : State := { State.reset with len := 32#32 }

theorem witness_CbcEncryptChainsOutputBlocks (d : Dir) :
    0 < twoBlocks.len.toNat ∧ twoBlocks.len.toNat % 16 = 0 ∧ buffersInRange twoBlocks (.cbce d) ∧ twoBlocks.cv = blockOfHex 0 ∧
    ∃ t, exec (.cbce d) twoBlocks = .next t := by
  have hr : buffersInRange twoBlocks (.cbce d) := (witness_block_modes d (.cbce d) (by simp)).2.2.2.2.2.2.1
  obtain ⟨out, ho, -⟩ := cbcEncrypt_result (blockTransform d twoBlocks.k) twoBlocks.cv twoBlocks (fun _ => rfl)
  exact ⟨by decide, rfl, hr, rfl, _, modeCommand_ok (needs16 := true) (fun _ => rfl) hr ho⟩

/-- `CBCE` in place and `CBCD` after it, and one `CBCD` under two chaining values. -/
theorem witness_CbcDecryptChainsInputBlocks (d e : Dir) (iv : Block) :
    twoBlocks.len.toNat % 16 = 0 ∧ buffersInRange twoBlocks (.cbcd d) ∧ buffersInRange twoBlocks (.cbce d) ∧
    twoBlocks.src = twoBlocks.dst ∧ (∃ t u, exec (.cbce d) twoBlocks = .next t ∧ exec (.cbcd e) t = .next u) ∧
    ∃ t u, exec (.cbcd d) twoBlocks = .next t ∧ exec (.cbcd d) { twoBlocks with cv := iv } = .next u := by
  have hr : buffersInRange twoBlocks (.cbcd d) := (witness_block_modes d (.cbcd d) (by simp)).2.2.2.2.2.2.1
  have completes : ∀ (d : Dir) (m : State), m.len.toNat % 16 = 0 → buffersInRange m (.cbcd d) → ∃ t, exec (.cbcd d) m = .next t := by
    intro d m h hr
    obtain ⟨out, ho, -⟩ := cbcDecrypt_result (blockTransform d m.k) m.cv m (fun _ => h)
    exact ⟨_, modeCommand_ok (needs16 := true) (fun _ => h) hr ho⟩
  obtain ⟨out, ho, -⟩ := cbcEncrypt_result (blockTransform d twoBlocks.k) twoBlocks.cv twoBlocks (fun _ => rfl)
  obtain ⟨u, hu⟩ := completes e (finishBuffer out twoBlocks) (by rw [finishBuffer_len]; rfl) hr
  obtain ⟨v, hv⟩ := completes d twoBlocks rfl hr
  obtain ⟨w, hw⟩ := completes d { twoBlocks with cv := iv } (show twoBlocks.len.toNat % 16 = 0 from rfl) hr
  exact ⟨rfl, hr, hr, rfl, ⟨_, u, modeCommand_ok (needs16 := true) (fun _ => rfl) hr ho, hu⟩, v, w, hv, hw⟩

theorem witness_CtrCombinesWithTheKeystream (d : Dir) :
    buffersInRange { State.reset with src := 239#32, dst := 239#32, len := 17#32 } (.ctr d) ∧ 16 < (17#32 : Word).toNat ∧
    ¬buffersInRange { State.reset with src := 239#32, dst := 240#32, len := 17#32 } (.ctr d) ∧
    twoBlocks.src = twoBlocks.dst ∧ buffersInRange twoBlocks (.ctr d) ∧
    ∃ t u, exec (.ctr d) twoBlocks = .next t ∧ exec (.ctr d) t = .next u := by
  have hr : buffersInRange twoBlocks (.ctr d) := (witness_block_modes d (.ecb d) (by simp)).2.2.2.2.2.2.1
  have completes : ∀ m : State, buffersInRange m (.ctr d) →
      exec (.ctr d) m = .next (finishBuffer (ctr (blockTransform d m.k) m.nonce (inputBytes m)) m) := fun m hr =>
    modeCommand_ok (needs16 := false) (fn := fun input => some (ctr (blockTransform d m.k) m.nonce input)) (fun h => nomatch h) hr rfl
  refine ⟨?_, by decide, ?_, rfl, hr, _, _, completes _ hr, completes _ hr⟩ <;> simp only [buffersInRange] <;> decide

theorem witness_CounterBlockIsNonceThenBigEndianIndex :
    0 < 2 ^ 64 ∧ 2 ^ 64 - 1 < 2 ^ 64 ∧ counterBlock zeroNonce (2 ^ 64 - 1) = counterBlock zeroNonce (2 ^ 64 - 1) := ⟨by decide, by decide, rfl⟩

theorem witness_ModesRoundTrip : ([] : List Byte).length % 16 = 0 ∧ (bytesOfHex 32 1).length % 16 = 0 := by decide

theorem witness_ModeCommandsLeaveTheRestAlone (d : Dir) :
    Instr.ctr d ∈ [Instr.ecb d, Instr.cbce d, Instr.cbcd d, Instr.ctr d] ∧ ∃ t, exec (.ctr d) State.reset = .next t := by
  refine ⟨by simp, ?_⟩
  cases d <;> exact ⟨_, rfl⟩

/-- The smallest and the largest block size, the output up to the last address and one address further. -/
theorem witness_PadAppendsTheCount :
    (1#8 : Byte) ≠ 0#8 ∧ (255#8 : Byte) ≠ 0#8 ∧ buffersInRange { State.reset with dst := 255#32 } (.pad 1#8) ∧
    buffersInRange { State.reset with dst := 1#32 } (.pad 255#8) ∧ ¬buffersInRange { State.reset with dst := 2#32 } (.pad 255#8) ∧
    buffersInRange { State.reset with len := 5#32 } (.pad 16#8) ∧ (0 < (5#32 : Word).toNat) ∧ (5#32 : Word).toNat ≤ 15 ∧
    15 < (5#32 : Word).toNat + 11 := by
  simp only [buffersInRange]; decide

/-- Padding of the whole input, an empty input, and an input one address too far. -/
theorem witness_UnpadAcceptsExactlyValidPadding :
    (let m := bufferState 0#32 (bytesOfHex 2 0x0202)
     let n := (Memory.read m.mem (m.src.toNat + m.len.toNat - 1)).toNat
     buffersInRange m .unpad ∧ 0 < m.len.toNat ∧ n ≠ 0 ∧ n ≤ m.len.toNat ∧
       ∀ i, m.len.toNat - n ≤ i → i < m.len.toNat → (Memory.read m.mem (m.src.toNat + i)).toNat = n) ∧
    (buffersInRange State.reset .unpad ∧ ¬0 < State.reset.len.toNat) ∧
    ¬buffersInRange { State.reset with src := 250#32, len := 7#32 } .unpad := by
  refine ⟨⟨by unfold buffersInRange; decide +kernel, by decide +kernel, by decide +kernel, by decide +kernel, fun i _ hi => ?_⟩,
    by simp only [buffersInRange]; decide +kernel, by simp only [buffersInRange]; decide +kernel⟩
  exact (by decide +kernel : ∀ i < 2, (Memory.read (bufferState 0#32 (bytesOfHex 2 0x0202)).mem (0 + i)).toNat = 2) i hi

theorem witness_PadZeroFailsAsItsWord : (scripted [wr .cmd 0x00000050#32]).script = wr .cmd 0x00000050#32 :: [] := rfl

/-- Each reason to reject: a pad length of 0, a buffer that is too short, and trailing bytes that differ. -/
theorem witness_UnpadUndoesPad :
    (1 ≤ 1 ∧ 1 ≤ 255) ∧ (1 ≤ 255 ∧ 255 ≤ 255) ∧
    (bytesOfHex 4 0xaabbcc00).getLast? = some 0#8 ∧
    ((bytesOfHex 2 0x0303).getLast? = some 3#8 ∧ (bytesOfHex 2 0x0303).length < (3#8 : Byte).toNat) ∧
    ((bytesOfHex 4 0xaabb0303).getLast? = some 3#8 ∧ (bytesOfHex 4 0xaabb0303).length - (3#8 : Byte).toNat ≤ 1 ∧
      (bytesOfHex 4 0xaabb0303)[1]? = some 0xbb#8 ∧ 0xbb#8 ≠ 3#8) := by decide +kernel

end Sys2Proof.Tests
end

/-! Proofs of the scope statements: what each host action does to the script, the observations and the size of the buffer space. -/
namespace Sys2Proof.Machine

/-! ### Commands leave the run alone -/

/-- In each of the six forms in which a command ends, the run is as it was (R40). -/
theorem exec_next_sameRun (i : Instr) (m : State) : ∃ t, exec i m = .next t ∧ SameRun m t := by
  rcases exec_forms i m with ⟨_, h, -⟩ | ⟨_, h, -⟩ | ⟨_, h, -⟩ | ⟨_, _, h, -⟩ | ⟨_, h, -⟩ | ⟨_, h, -⟩ <;>
    exact ⟨_, h, rfl, rfl, rfl⟩

/-- The same of a word written to `CMD`, whether it decodes or is a reserved encoding (R94, R95). -/
theorem runCommand_next_sameRun (w : Word) (m : State) : ∃ t, runCommand w m = .next t ∧ SameRun m t := by
  unfold runCommand
  cases decode w with
  | ok i => exact exec_next_sameRun i { m with cmd := w }
  | error _ => exact ⟨_, rfl, rfl, rfl, rfl⟩

/-! ### What an action that is not refused does to the run -/

/-- A register read only observes (R38). -/
theorem eq_observe_of_act_regRead {off bits : Nat} {m t : State} (h : act (.regRead off bits) m = .next t) :
    ∃ v, t = observe (.register v) m := by
  simp only [act, hostRegRead] at h
  split at h
  · exact ⟨_, (Host.Outcome.next.inj h).symm⟩
  · cases h

/-- A buffer read only observes (R76). -/
theorem eq_observe_of_act_bufRead {a : Nat} {m t : State} (h : act (.bufRead a) m = .next t) :
    ∃ b, t = observe (.buffer b) m := by
  simp only [act, hostBufRead] at h
  split at h
  · exact ⟨_, (Host.Outcome.next.inj h).symm⟩
  · cases h

/-- A register write observes nothing: the port stores the word or runs it as a command (R31, R38). -/
theorem sameRun_of_act_regWrite {off bits : Nat} {v : Word} {m t : State} (h : act (.regWrite off bits v) m = .next t) :
    SameRun m t := by
  simp only [act, hostRegWrite] at h
  split at h
  next r _ =>
    split at h
    · obtain ⟨t', hrun, hsame⟩ := runCommand_next_sameRun v m
      cases hrun.symm.trans h
      exact hsame
    · cases h
      exact ⟨writeReg_memLast r v m, writeReg_script r v m, writeReg_observed r v m⟩
  · cases h

/-- A buffer write observes nothing (R76). -/
theorem sameRun_of_act_bufWrite {a : Nat} {b : Byte} {m t : State} (h : act (.bufWrite a b) m = .next t) : SameRun m t := by
  simp only [act, hostBufWrite] at h
  split at h
  · cases h
    exact ⟨rfl, rfl, rfl⟩
  · cases h

/-- A reset does not reach the run (R40, R286). -/
theorem sameRun_of_act_reset {image : ResetImage} {m t : State} (h : act (.reset image) m = .next t) : SameRun m t := by
  cases h
  exact ⟨applyReset_memLast image m, applyReset_script image m, applyReset_observed image m⟩

/-! ### The step -/

/-- Settles O21, by the first action of the script: a read is an observation in the state without that action, and every other action
leaves the run of that state alone. -/
theorem stepPerformsOneHostAction : Obligations.StepPerformsOneHostAction := by
  intro m t hstep
  cases hm : m.script with
  | nil =>
    obtain rfl : m = t := by simpa [step, hostStep, hm] using hstep
    simp [hm]
  | cons a rest =>
    rw [step_of_script hm] at hstep
    cases a with
    | regRead off bits =>
      obtain ⟨v, rfl⟩ := eq_observe_of_act_regRead hstep
      simp
    | bufRead a =>
      obtain ⟨b, rfl⟩ := eq_observe_of_act_bufRead hstep
      simp
    | regWrite off bits v =>
      obtain ⟨hlast, hscript, hobserved⟩ := sameRun_of_act_regWrite hstep
      simp [hlast, hscript, hobserved]
    | bufWrite a b =>
      obtain ⟨hlast, hscript, hobserved⟩ := sameRun_of_act_bufWrite hstep
      simp [hlast, hscript, hobserved]
    | reset image =>
      obtain ⟨hlast, hscript, hobserved⟩ := sameRun_of_act_reset hstep
      simp [hlast, hscript, hobserved]

end Sys2Proof.Machine

/-! Proofs of the state statements: the register map and the register port, what a step leaves in `CMD` and `STATUS`, what a command may
write, and reset. -/
namespace Sys2Proof.Machine

/-! ### The register map -/

theorem regOffset_mod_four (r : Reg) : regOffset r % 4 = 0 := by
  cases r <;> simp only [regOffset] <;> omega

theorem regOffset_lt (r : Reg) : regOffset r < 0x68 := by
  cases r <;> simp only [regOffset] <;> omega

/-- A listed offset is the offset of the register found there. -/
theorem regOffset_of_regAt {off : Nat} {r : Reg} (h : regAt off = some r) : regOffset r = off := by
  unfold regAt at h
  split at h <;> cases h <;> rfl

theorem regAt_eq_some_iff {off : Nat} {r : Reg} : regAt off = some r ↔ regOffset r = off :=
  ⟨regOffset_of_regAt, fun h => h ▸ regAt_regOffset r⟩

/-- The 26 listed offsets are the multiples of 4 below 0x68. -/
theorem isSome_regAt_iff {off : Nat} : (regAt off).isSome = true ↔ off % 4 = 0 ∧ off < 0x68 := by
  constructor
  · intro h
    obtain ⟨r, hr⟩ := Option.isSome_iff_exists.1 h
    exact regOffset_of_regAt hr ▸ ⟨regOffset_mod_four r, regOffset_lt r⟩
  · rintro ⟨hmod, hlt⟩
    have listed : ∀ n : Fin 26, (regAt (4 * n.val)).isSome = true := by decide
    have hoff : 4 * (off / 4) = off := by omega
    exact hoff ▸ listed ⟨off / 4, by omega⟩

theorem portReg_of_unlisted {off : Nat} (h : 0x68 ≤ off ∨ off % 4 ≠ 0) :
    portReg off 32 = .error (.unlistedOffset off) := by
  have hnone : regAt off = none := by
    rw [← Option.not_isSome_iff_eq_none, isSome_regAt_iff]
    omega
  simp [portReg, hnone]

/-! ### The lanes of a register word -/

/-- The words of a block register after a write of word `j`. -/
theorem laneWord_blockQuad_write (x : Block) (j i : Fin 4) (v : Word) :
    laneWord (blockQuad (setBlockQuad x j (laneQuad v)) i) = if i = j then v else laneWord (blockQuad x i) := by
  rw [blockQuad_setBlockQuad, apply_ite laneWord, laneWord_laneQuad]

/-- The words of the nonce after a write of word `j`. -/
theorem laneWord_nonceQuad_write (x : Nonce) (j i : Fin 2) (v : Word) :
    laneWord (nonceQuad (setNonceQuad x j (laneQuad v)) i) = if i = j then v else laneWord (nonceQuad x i) := by
  rw [nonceQuad_setNonceQuad, apply_ite laneWord, laneWord_laneQuad]

/-- The bytes of a block register after a write of word `j`. -/
theorem blockByte_write (x : Block) (j : Fin 4) (v : Word) (i : Fin 16) :
    blockByte (setBlockQuad x j (laneQuad v)) i =
      if i.val / 4 = j.val then BitVec.ofNat 8 (v.toNat / 256 ^ (i.val % 4)) else blockByte x i := by
  rw [blockByte_setBlockQuad, quadByte_laneQuad]

/-- The bytes of the nonce after a write of word `j`. -/
theorem nonceByte_write (x : Nonce) (j : Fin 2) (v : Word) (i : Fin 8) :
    nonceByte (setNonceQuad x j (laneQuad v)) i =
      if i.val / 4 = j.val then BitVec.ofNat 8 (v.toNat / 256 ^ (i.val % 4)) else nonceByte x i := by
  rw [nonceByte_setNonceQuad, quadByte_laneQuad]

/-! ### A step that accesses a register -/

section
variable {m : State} {rest : List HostAction}

/-- A step on `RD reg` adds the register's word to the observations. -/
theorem step_rd {r : Reg} (h : m.script = rd r :: rest) :
    step m = .next { m with script := rest, observed := m.observed ++ [.register (readReg r m)] } := by
  have hread : readReg r { m with script := rest } = readReg r m := by cases r <;> rfl
  rw [step_of_script h, act_rd, hread, observe]

/-- A step on `WR reg, value` stores the value in any register but `CMD`. -/
theorem step_wr {r : Reg} {v : Word} (h : m.script = wr r v :: rest) (hr : r ≠ .cmd) :
    step m = .next (writeReg r v { m with script := rest }) := by
  rw [step_of_script h, act_wr v _ hr]

/-- A step on `WR CMD, value` executes the word. -/
theorem step_wr_cmd {w : Word} (h : m.script = wr .cmd w :: rest) :
    step m = runCommand w { m with script := rest } := by
  rw [step_of_script h, act_wr_cmd]

theorem step_regRead_of_unlisted {off : Nat} (h : m.script = .regRead off 32 :: rest)
    (hoff : 0x68 ≤ off ∨ off % 4 ≠ 0) : step m = .refused (.unlistedOffset off) := by
  simp [step_of_script h, act, hostRegRead, portReg_of_unlisted hoff]

theorem step_regWrite_of_unlisted {off : Nat} {v : Word} (h : m.script = .regWrite off 32 v :: rest)
    (hoff : 0x68 ≤ off ∨ off % 4 ≠ 0) : step m = .refused (.unlistedOffset off) := by
  simp [step_of_script h, act, hostRegWrite, portReg_of_unlisted hoff]

end

/-! ### Running a command word -/

theorem runCommand_of_decode_ok {w : Word} {i : Instr} (m : State) (h : decode w = .ok i) :
    runCommand w m = exec i { m with cmd := w } := by
  simp only [runCommand, h]

theorem runCommand_of_decode_error {w : Word} {e : Reserved} (m : State) (h : decode w = .error e) :
    runCommand w m = .next (fail .errCmd { m with cmd := w }) := by
  simp only [runCommand, h]

/-- In each of the six forms in which a command ends, the host's registers and `CMD` are as they were (R42). -/
theorem exec_next_sameHostRegs (i : Instr) (m : State) : ∃ t, exec i m = .next t ∧ SameHostRegs m t := by
  rcases exec_forms i m with ⟨_, h, -⟩ | ⟨_, h, -⟩ | ⟨_, h, -⟩ | ⟨_, _, h, -⟩ | ⟨_, h, -⟩ | ⟨_, h, -⟩ <;>
    exact ⟨_, h, rfl, rfl, rfl, rfl, rfl, rfl, rfl⟩

/-- A word written to `CMD` has a next state, and `CMD` holds the word in it (R31). -/
theorem runCommand_next_cmd (w : Word) (m : State) : ∃ t, runCommand w m = .next t ∧ t.cmd = w := by
  cases hw : decode w with
  | ok i =>
    obtain ⟨t, ht, -, -, -, -, -, -, hcmd⟩ := exec_next_sameHostRegs i { m with cmd := w }
    exact ⟨t, (runCommand_of_decode_ok m hw).trans ht, hcmd⟩
  | error e => exact ⟨_, runCommand_of_decode_error m hw, rfl⟩

/-- A mode command does not read `STATUS`: its checks and its input do not, and each of its ends overwrites it. -/
theorem modeCommand_status (needs16 : Bool) (fn : List Byte → Option (List Byte)) (m : State) (c : StatusCode) :
    modeCommand needs16 fn { m with status := c } = modeCommand needs16 fn m := rfl

/-- No command reads `STATUS` (R30). -/
theorem exec_status (i : Instr) (m : State) (c : StatusCode) : exec i { m with status := c } = exec i m := by
  cases i with
  | ecb d => exact modeCommand_status true (ecb (blockTransform d m.k)) m c
  | cbce d => exact modeCommand_status true (cbcEncrypt (blockTransform d m.k) m.cv) m c
  | cbcd d => exact modeCommand_status true (cbcDecrypt (blockTransform d m.k) m.cv) m c
  | ctr d => exact modeCommand_status false (fun input => some (ctr (blockTransform d m.k) m.nonce input)) m c
  | _ => rfl

/-- A buffer that ends within the buffer space has its length in `RLEN` untruncated, and only its own bytes are written (R60, R66). -/
theorem finishBuffer_mem_ne {out : List Byte} {m : State} {a : Nat} (hfit : m.dst.toNat + out.length ≤ m.memBytes)
    (ha : Memory.read (finishBuffer out m).mem a ≠ Memory.read m.mem a) :
    m.dst.toNat ≤ a ∧ a < m.dst.toNat + (finishBuffer out m).rlen.toNat := by
  have hsize : m.memBytes ≤ 4294967295 := m.memLast.isLt
  have hrlen : (finishBuffer out m).rlen.toNat = out.length := by
    rw [finishBuffer_rlen, BitVec.toNat_ofNat, Nat.mod_eq_of_lt (by omega)]
  rw [hrlen]
  by_contra hout
  exact ha (Memory.read_writeBytes_outside out m.mem _ (by omega))

/-! ### What a step leaves in `CMD` and `STATUS` -/

/-- The number of a status code is its place in the list of R30, and `STATUS` reads as it. -/
theorem statusWord_eq_number (c : StatusCode) :
    (statusNumber c).toNat ≤ 5 ∧ statusWord c = BitVec.ofNat 32 (statusNumber c).toNat ∧
      [StatusCode.ok, .errLen, .errPad, .errCmd, .errRange, .errRnd][(statusNumber c).toNat]? = some c := by
  cases c <;> decide

theorem writeReg_cmd_of_ne {r : Reg} (v : Word) (m : State) (h : r ≠ .cmd) : (writeReg r v m).cmd = m.cmd := by
  cases r with
  | cmd => exact absurd rfl h
  | _ => rfl

/-- A register write that is not refused is a write of `CMD`, or it stores its word in another register (R36, R38). -/
theorem eq_writeReg_of_act_regWrite {off bits : Nat} {v : Word} {m t : State}
    (h : act (.regWrite off bits v) m = .next t) (hcmd : HostAction.regWrite off bits v ≠ wr .cmd v) :
    ∃ r, r ≠ .cmd ∧ t = writeReg r v m := by
  rcases portReg_cases off bits with ⟨r, -, rfl, hat⟩ | ⟨hport, -⟩ | ⟨hport, -⟩
  · obtain rfl := regOffset_of_regAt hat
    have hr : r ≠ .cmd := by
      rintro rfl
      exact hcmd rfl
    exact ⟨r, hr, (Host.Outcome.next.inj ((act_wr v m hr).symm.trans h)).symm⟩
  · simp [act, hostRegWrite, hport] at h
  · simp [act, hostRegWrite, hport] at h

/-- A buffer write changes `MEM` alone (R76). -/
theorem eq_write_of_act_bufWrite {a : Nat} {b : Byte} {m t : State} (h : act (.bufWrite a b) m = .next t) :
    t = { m with mem := Memory.write m.mem a b } := by
  simp only [act, hostBufWrite] at h
  split at h
  · exact (Host.Outcome.next.inj h).symm
  · cases h

/-- Of the host actions only a write to `CMD` and a reset change `CMD` or `STATUS` (R30, R31). -/
theorem act_keeps_cmd_status {a : HostAction} {m t : State} (h : act a m = .next t) (hcmd : ∀ w, a ≠ wr .cmd w)
    (hreset : ∀ image, a ≠ .reset image) : t.cmd = m.cmd ∧ t.status = m.status := by
  cases a with
  | regRead off bits =>
    obtain ⟨v, rfl⟩ := eq_observe_of_act_regRead h
    exact ⟨observe_cmd _ m, observe_status _ m⟩
  | regWrite off bits v =>
    obtain ⟨r, hr, rfl⟩ := eq_writeReg_of_act_regWrite h (hcmd v)
    exact ⟨writeReg_cmd_of_ne v m hr, writeReg_status r v m⟩
  | bufRead a =>
    obtain ⟨b, rfl⟩ := eq_observe_of_act_bufRead h
    exact ⟨observe_cmd _ m, observe_status _ m⟩
  | bufWrite a b =>
    obtain rfl := eq_write_of_act_bufWrite h
    exact ⟨rfl, rfl⟩
  | reset image => exact absurd rfl (hreset image)

/-- The same of a step: it performs the first action of the script, or idles. -/
theorem step_keeps_cmd_status {m t : State} (h : step m = .next t) (hcmd : ∀ w rest, m.script ≠ wr .cmd w :: rest)
    (hreset : ∀ image rest, m.script ≠ .reset image :: rest) : t.cmd = m.cmd ∧ t.status = m.status := by
  cases hm : m.script with
  | nil =>
    obtain rfl : m = t := by simpa [step, hostStep, hm] using h
    exact ⟨rfl, rfl⟩
  | cons a rest =>
    rw [step_of_script hm] at h
    exact act_keeps_cmd_status (m := { m with script := rest }) h (fun w e => hcmd w rest (e ▸ hm))
      (fun image e => hreset image rest (e ▸ hm))

/-! ### The memory a reset leaves -/

/-- The canonical form of a memory with one more cell at its end. -/
theorem Memory.wf_concat {cells : Memory} {a : Nat} {v : Byte} (h : Memory.wf (cells ++ [(a, v)]) = true) :
    Memory.wf cells = true ∧ (∀ c ∈ cells, c.1 < a) ∧ v ≠ Config.unlistedByte := by
  induction cells with
  | nil => simpa [Memory.wf, Memory.above] using h
  | cons d cells ih =>
    obtain ⟨b, w⟩ := d
    simp only [List.cons_append, Memory.wf, Bool.and_eq_true] at h ⊢
    obtain ⟨⟨hw, habove⟩, hrest⟩ := h
    obtain ⟨hwf, hbelow, hv⟩ := ih hrest
    rw [Memory.above_iff] at habove
    have hcells : Memory.above b cells = true :=
      Memory.above_iff.2 fun c hc => habove c (List.mem_append_left _ hc)
    have hba : b < a := habove (a, v) (by simp)
    exact ⟨⟨⟨hw, hcells⟩, hwf⟩, List.forall_mem_cons.2 ⟨hba, hbelow⟩, hv⟩

theorem Memory.erase_of_below {cells : Memory} {a : Nat} (h : ∀ c ∈ cells, c.1 < a) : Memory.erase cells a = cells := by
  induction cells with
  | nil => rfl
  | cons d cells ih =>
    obtain ⟨hd, hcells⟩ := List.forall_mem_cons.1 h
    rw [Memory.erase, if_neg (Nat.ne_of_lt hd), ih hcells]

theorem Memory.insert_of_below {cells : Memory} {a : Nat} (v : Byte) (h : ∀ c ∈ cells, c.1 < a) :
    Memory.insert cells a v = cells ++ [(a, v)] := by
  induction cells with
  | nil => rfl
  | cons d cells ih =>
    obtain ⟨hd, hcells⟩ := List.forall_mem_cons.1 h
    rw [Memory.insert, if_neg (Nat.lt_asymm hd), ih hcells, List.cons_append]

/-- A write above every listed address puts its cell at the end. -/
theorem Memory.write_of_below {cells : Memory} {a : Nat} {v : Byte} (h : ∀ c ∈ cells, c.1 < a)
    (hv : v ≠ Config.unlistedByte) : Memory.write cells a v = cells ++ [(a, v)] := by
  rw [Memory.write, if_neg hv, Memory.erase_of_below h, Memory.insert_of_below v h]

/-- A memory in canonical form and within bounds is the content that its own list of cells loads (R39: every content is possible). -/
theorem Memory.load_of_canonical {limit : Nat} {cells : Memory} (hwf : Memory.wf cells = true)
    (hin : Memory.within limit cells = true) : Memory.load limit cells = cells := by
  induction cells using List.reverseRecOn with
  | nil => rfl
  | append_singleton cells c ih =>
    obtain ⟨hwf', hbelow, hv⟩ := Memory.wf_concat hwf
    have hlt : ∀ d ∈ cells ++ [c], d.1 < limit := Memory.within_iff.1 hin
    have hload : Memory.load limit cells = cells :=
      ih hwf' (Memory.within_iff.2 fun d hd => hlt d (List.mem_append_left _ hd))
    calc Memory.load limit (cells ++ [c])
        = Memory.write (Memory.load limit cells) c.1 c.2 := by simp [Memory.load, hlt c (by simp)]
      _ = cells ++ [c] := by rw [hload, Memory.write_of_below hbelow hv]

/-! ### The statements on commands -/

/-- Settles O22, by the six forms in which a command ends. -/
theorem commandsLeaveHostRegistersAlone : Obligations.CommandsLeaveHostRegistersAlone := by
  intro i m t h
  obtain ⟨_, hregs, hsame⟩ := exec_next_sameHostRegs i m
  obtain ⟨_, hrun, hsameRun⟩ := exec_next_sameRun i m
  cases hregs.symm.trans h
  cases hrun.symm.trans h
  exact ⟨hsame, hsameRun⟩

/-- Settles O23: each of the six forms in which a command ends changes the registers of one column alone. -/
theorem commandsWriteOnlyTheirColumns : Obligations.CommandsWriteOnlyTheirColumns := by
  intro i m t h
  rcases exec_forms i m with
    ⟨c, he, -, -, hclear⟩ | ⟨v, he, hop⟩ | ⟨x, he, hop⟩ | ⟨x, r, he, hop⟩ | ⟨out, he, hfit, hop⟩ | ⟨n, he, -, hop⟩ <;>
    cases he.symm.trans h
  · have hrlen : (fail c m).rlen ≠ m.rlen → clearsRlen c = true := by
      cases hc : clearsRlen c <;> simp [hc]
    exact ⟨by simp, by simp, by simp, fun hne => hclear (hrlen hne), by simp⟩
  · exact ⟨fun _ => hop, by simp, by simp, by simp, by simp⟩
  · exact ⟨by simp, fun _ => hop, by simp, by simp, by simp⟩
  · exact ⟨by simp, by simp, fun _ => hop, by simp, by simp⟩
  · refine ⟨by simp, by simp, by simp, fun _ => ?_, fun a ha => ⟨hop, rfl, finishBuffer_mem_ne hfit ha⟩⟩
    exact List.mem_append_left [0x51#8] hop
  · exact ⟨by simp, by simp, by simp, fun _ => by simp [hop], by simp⟩

/-! ### The statements on the register port -/

/-- Settles O8: the rows are the equations of `regAt`, and `regOffset` is its inverse on the multiples of 4 below 0x68. -/
theorem registerMapListsOffsets : Obligations.RegisterMapListsOffsets := by
  refine ⟨?_, ?_, ?_, ?_, ?_, ?_, fun _ _ => regAt_eq_some_iff, fun _ => isSome_regAt_iff⟩ <;> decide

/-- Settles O6. -/
theorem cmdWriteRunsDecodedCommand : Obligations.CmdWriteRunsDecodedCommand := by
  intro m rest w i h hw
  rw [step_wr_cmd h, runCommand_of_decode_ok _ hw]

/-- Settles O7: a command keeps the `CMD` that its write has stored, and no other action but a reset reaches `CMD`. -/
theorem cmdReadsBackLastWordWritten : Obligations.CmdReadsBackLastWordWritten := by
  refine ⟨fun m rest w h => ?_, fun _ _ h => step_rd h, fun _ _ h hcmd hreset => (step_keeps_cmd_status h hcmd hreset).1⟩
  obtain ⟨t, ht, hcmd⟩ := runCommand_next_cmd w { m with script := rest }
  refine ⟨t, (step_wr_cmd h).trans ht, hcmd, fun i hi => ?_, fun e he => ?_⟩
  · rw [← ht, runCommand_of_decode_ok _ hi]
  · cases (runCommand_of_decode_error _ he).symm.trans ht
    rfl

/-- Settles O24. -/
theorem statusHoldsTheLastOutcome : Obligations.StatusHoldsTheLastOutcome :=
  ⟨fun m => ⟨(statusNumber m.status).toNat, statusWord_eq_number m.status⟩,
    fun _ _ h hcmd hreset => (step_keeps_cmd_status h hcmd hreset).2,
    fun _ _ _ h => step_wr h nofun,
    exec_status⟩

/-- Settles O9: a write stores what `writeReg` says, a read observes what `readReg` says, and an offset with no register is refused. -/
theorem hostAccessRules : Obligations.HostAccessRules := by
  intro m rest v
  refine ⟨fun h => step_wr h nofun, ?readOnly, fun h => step_wr h nofun, fun h => step_wr h nofun, fun h => step_wr h nofun,
    fun j h => ⟨_, step_wr h nofun, fun i => laneWord_blockQuad_write m.k j i v⟩,
    fun j h => ⟨_, step_wr h nofun, fun i => laneWord_blockQuad_write m.rk j i v⟩,
    fun j h => ⟨_, step_wr h nofun, fun i => laneWord_blockQuad_write m.s j i v⟩,
    fun j h => ⟨_, step_wr h nofun, fun i => laneWord_blockQuad_write m.cv j i v⟩,
    fun j h => ⟨_, step_wr h nofun, fun i => laneWord_nonceQuad_write m.nonce j i v⟩,
    fun r h => step_rd h, ?words, fun off hoff =>
      ⟨fun h => step_regRead_of_unlisted h hoff, fun h => step_regWrite_of_unlisted h hoff⟩⟩
  case readOnly =>
    simp only [List.forall_mem_cons, List.not_mem_nil, false_imp_iff, implies_true, and_true]
    exact ⟨fun h => step_wr h nofun, fun h => step_wr h nofun, fun h => step_wr h nofun⟩
  case words =>
    exact ⟨rfl, rfl, rfl, rfl, rfl, BitVec.toNat_setWidth_of_le (by decide), BitVec.toNat_setWidth_of_le (by decide)⟩

/-- Settles O10, by the two lane lemmas: the number of a word read, and the bytes after a word is written;
the four writes of the rule's example are run. -/
theorem byteLanesAreLittleEndian : Obligations.ByteLanesAreLittleEndian := by
  refine ⟨fun m rest => ?reads, fun m rest v => ?writes, fun m => ⟨_, rfl, rfl⟩⟩
  case reads =>
    exact ⟨fun j h => ⟨_, _, step_rd h, rfl, toNat_laneWord _⟩, fun j h => ⟨_, _, step_rd h, rfl, toNat_laneWord _⟩,
      fun j h => ⟨_, _, step_rd h, rfl, toNat_laneWord _⟩, fun j h => ⟨_, _, step_rd h, rfl, toNat_laneWord _⟩,
      fun j h => ⟨_, _, step_rd h, rfl, toNat_laneWord _⟩⟩
  case writes =>
    exact ⟨fun j h => ⟨_, step_wr h nofun, blockByte_write m.k j v⟩, fun j h => ⟨_, step_wr h nofun, blockByte_write m.rk j v⟩,
      fun j h => ⟨_, step_wr h nofun, blockByte_write m.s j v⟩, fun j h => ⟨_, step_wr h nofun, blockByte_write m.cv j v⟩,
      fun j h => ⟨_, step_wr h nofun, nonceByte_write m.nonce j v⟩⟩

/-! ### The statements on reset -/

/-- Settles O15: the action is `applyReset`, which loads a canonical image as it is. -/
theorem resetActionZeroesControlRegisters : Obligations.ResetActionZeroesControlRegisters := by
  intro m image rest h
  exact ⟨applyReset image { m with script := rest }, step_of_script h, rfl, rfl, rfl, rfl, rfl, rfl, rfl, rfl, rfl, rfl, rfl,
    rfl, rfl, Memory.load_of_canonical, rfl, rfl, rfl⟩

/-- Settles O16: the values are fields of `State.reset`. -/
theorem resetStateHasZeroControlRegisters : Obligations.ResetStateHasZeroControlRegisters :=
  ⟨rfl, rfl, rfl, rfl, rfl, rfl, rfl, rfl⟩

/-- Settles O19: `State.reset` lists no cell. -/
theorem resetMemoryIsCanonical : Obligations.ResetMemoryIsCanonical :=
  ⟨rfl, rfl⟩

end Sys2Proof.Machine

/-! Proofs of the memory statements: a canonical memory is determined by what it reads, the buffer port, and that every step keeps memory
canonical and within the buffer space. -/
namespace Sys2Proof.Machine

/-! ### A canonical memory is determined by what it reads -/

@[simp] theorem Memory.read_cons_self (a : Nat) (v : Byte) (cells : Memory) :
    Memory.read ((a, v) :: cells) a = v := if_pos rfl

theorem Memory.read_cons_ne {a b : Nat} (v : Byte) (cells : Memory) (h : b ≠ a) :
    Memory.read ((a, v) :: cells) b = Memory.read cells b := if_neg h.symm

theorem Memory.wf_cons_iff {a : Nat} {v : Byte} {cells : Memory} :
    Memory.wf ((a, v) :: cells) = true ↔
      v ≠ Config.unlistedByte ∧ (∀ c ∈ cells, a < c.1) ∧ Memory.wf cells = true := by
  simp only [Memory.wf, Bool.and_eq_true, Memory.above_iff, decide_eq_true_eq, and_assoc]

/-- A memory whose cells all stand above `a` does not list `a`. -/
theorem Memory.read_of_above {a : Nat} {cells : Memory} (h : ∀ c ∈ cells, a < c.1) :
    Memory.read cells a = Config.unlistedByte := by
  induction cells with
  | nil => rfl
  | cons d cells ih =>
    obtain ⟨hd, hcells⟩ := List.forall_mem_cons.1 h
    exact (Memory.read_cons_ne d.2 cells (Nat.ne_of_lt hd)).trans (ih hcells)

/-- The first cell of a canonical memory does not read like an unlisted address. -/
theorem Memory.read_head_ne_unlisted {c : Host.Cell} {cells : Memory} (h : Memory.wf (c :: cells) = true) :
    Memory.read (c :: cells) c.1 ≠ Config.unlistedByte := by
  rw [Memory.read_cons_self]
  exact (Memory.wf_cons_iff.1 h).1

/-- A canonical memory begins at or below every address that does not read as unlisted. -/
theorem Memory.head_le_of_read_ne_unlisted {a : Nat} {c : Host.Cell} {cells : Memory}
    (h : Memory.wf (c :: cells) = true) (ha : Memory.read (c :: cells) a ≠ Config.unlistedByte) : c.1 ≤ a := by
  obtain ⟨-, hcells, -⟩ := Memory.wf_cons_iff.1 h
  by_contra hca
  have hac : a < c.1 := Nat.lt_of_not_le hca
  exact ha (Memory.read_of_above (List.forall_mem_cons.2 ⟨hac, fun d hd => Nat.lt_trans hac (hcells d hd)⟩))

/-- Settles O20, by induction on the cells: memories that read the same have the same first cell, and then their rests read the same,
for neither rest lists the address of that cell. -/
theorem equalReadsMeanEqualMemories : Obligations.EqualReadsMeanEqualMemories := by
  intro x
  induction x with
  | nil =>
    intro y _ hy h
    cases y with
    | nil => rfl
    | cons d ys => exact absurd (h d.1).symm (Memory.read_head_ne_unlisted hy)
  | cons c xs ih =>
    intro y hx hy h
    cases y with
    | nil => exact absurd (h c.1) (Memory.read_head_ne_unlisted hx)
    | cons d ys =>
      have hdc : d.1 ≤ c.1 := Memory.head_le_of_read_ne_unlisted hy (h c.1 ▸ Memory.read_head_ne_unlisted hx)
      have hcd : c.1 ≤ d.1 := Memory.head_le_of_read_ne_unlisted hx (h d.1 ▸ Memory.read_head_ne_unlisted hy)
      obtain ⟨a, v⟩ := c
      obtain ⟨b, w⟩ := d
      obtain rfl : a = b := Nat.le_antisymm hcd hdc
      obtain rfl : v = w := by simpa using h a
      obtain ⟨-, hxs, hwfx⟩ := Memory.wf_cons_iff.1 hx
      obtain ⟨-, hys, hwfy⟩ := Memory.wf_cons_iff.1 hy
      have hrest : ∀ i, Memory.read xs i = Memory.read ys i := by
        intro i
        by_cases hi : i = a
        · rw [hi, Memory.read_of_above hxs, Memory.read_of_above hys]
        · rw [← Memory.read_cons_ne v xs hi, h i, Memory.read_cons_ne v ys hi]
      rw [ih ys hwfx hwfy hrest]

theorem Memory.read_write (cells : Memory) (a b : Nat) (v : Byte) :
    Memory.read (Memory.write cells a v) b = if b = a then v else Memory.read cells b := by
  by_cases h : b = a
  · rw [if_pos h, h, Memory.read_write_self]
  · rw [if_neg h, Memory.read_write_ne cells v h]

/-- Writes to different addresses of a canonical memory commute (R76): both orders are canonical and read the same. -/
theorem Memory.write_comm {cells : Memory} (h : Memory.wf cells = true) {a c : Nat} (hac : a ≠ c) (x y : Byte) :
    Memory.write (Memory.write cells a x) c y = Memory.write (Memory.write cells c y) a x := by
  refine equalReadsMeanEqualMemories _ _ (Memory.wf_write _ c y (Memory.wf_write _ a x h))
    (Memory.wf_write _ a x (Memory.wf_write _ c y h)) fun i => ?_
  simp only [Memory.read_write]
  by_cases hc : i = c
  · simp [hc, hac.symm]
  · simp [hc]

/-! ### The buffer port -/

section
variable {m : State} {rest : List HostAction} {a : Nat} {b : Byte}

theorem step_bufRead (h : m.script = .bufRead a :: rest) (ha : a < m.memBytes) :
    step m = .next { m with script := rest, observed := m.observed ++ [.buffer (Memory.read m.mem a)] } := by
  rw [step_of_script h]
  exact if_pos ha

theorem step_bufWrite (h : m.script = .bufWrite a b :: rest) (ha : a < m.memBytes) :
    step m = .next { m with script := rest, mem := Memory.write m.mem a b } := by
  rw [step_of_script h]
  exact if_pos ha

theorem step_bufRead_of_le (h : m.script = .bufRead a :: rest) (ha : m.memBytes ≤ a) :
    step m = .refused (.bufferAddress a) := by
  rw [step_of_script h]
  exact if_neg (Nat.not_lt.2 ha)

theorem step_bufWrite_of_le (h : m.script = .bufWrite a b :: rest) (ha : m.memBytes ≤ a) :
    step m = .refused (.bufferAddress a) := by
  rw [step_of_script h]
  exact if_neg (Nat.not_lt.2 ha)

/-- A buffer write that is not refused lies within the buffer space (R76). -/
theorem lt_memBytes_of_act_bufWrite {t : State} (h : act (.bufWrite a b) m = .next t) : a < m.memBytes := by
  by_contra ha
  cases (if_neg ha).symm.trans h

end

/-- A run of `k + 1` steps is a run of `k` steps from the next state. -/
theorem run_succ_of_step (M : Host.Core) (k : Nat) {s t : M.State} (h : M.step s = .next t) :
    M.run (k + 1) s = M.run k t := by
  simp only [Host.Core.run, h]

/-- Two buffer writes at the head of the script are performed one after the other (R286). -/
theorem run_bufWrite_bufWrite (m : State) (rest : List HostAction) {a c : Nat} (x y : Byte) (ha : a < m.memBytes)
    (hc : c < m.memBytes) :
    Sys2Proof.core.run 2 { m with script := .bufWrite a x :: .bufWrite c y :: rest } =
      .next { m with script := rest, mem := Memory.write (Memory.write m.mem a x) c y } :=
  calc Sys2Proof.core.run 2 { m with script := .bufWrite a x :: .bufWrite c y :: rest }
      = Sys2Proof.core.run 1 { m with script := .bufWrite c y :: rest, mem := Memory.write m.mem a x } :=
        run_succ_of_step Sys2Proof.core 1 (step_bufWrite (m := { m with script := _ }) rfl ha)
    _ = .next { m with script := rest, mem := Memory.write (Memory.write m.mem a x) c y } :=
        run_succ_of_step Sys2Proof.core 0 (step_bufWrite (m := { m with script := _, mem := _ }) rfl hc)

/-- Settles O11, by the steps of the buffer port; two writes may come in either order because they commute on the canonical memory of the
invariant. -/
theorem bufferPortMovesOneByte : Obligations.BufferPortMovesOneByte := by
  refine ⟨fun m rest a b ha => ⟨fun h => step_bufRead h ha, fun h => ?write⟩,
    fun m rest a b ha => ⟨fun h => step_bufRead_of_le h ha, fun h => step_bufWrite_of_le h ha⟩,
    fun m a c x y hinv ha hc hac => ?order⟩
  case write =>
    exact ⟨_, step_bufWrite h ha, Memory.read_write_self m.mem a b, fun c hca => Memory.read_write_ne m.mem b hca⟩
  case order =>
    obtain ⟨hwf, -⟩ := hinv
    refine ⟨_, run_bufWrite_bufWrite m [] x y ha hc, (run_bufWrite_bufWrite m [] y x hc ha).trans ?_⟩
    rw [Memory.write_comm hwf hac]

/-! ### The invariant -/

section
variable {m t : State}

/-- The invariant speaks of `MEM` and its size alone. -/
theorem State.Inv.of_same_mem (h : m.Inv) (hmem : t.mem = m.mem) (hlast : t.memLast = m.memLast) : t.Inv := by
  simpa only [State.Inv, State.memBytes, hmem, hlast] using h

/-- A byte written within the buffer space keeps the invariant (R61). -/
theorem inv_write {a : Nat} (h : m.Inv) (b : Byte) (ha : a < m.memBytes) :
    State.Inv { m with mem := Memory.write m.mem a b } := by
  obtain ⟨hwf, hin⟩ := h
  exact ⟨Memory.wf_write m.mem a b hwf, Memory.within_write m.mem a b ha hin⟩

/-- So does an output that ends within the buffer space (R66). -/
theorem inv_finishBuffer {out : List Byte} (h : m.Inv) (hfit : m.dst.toNat + out.length ≤ m.memBytes) :
    (finishBuffer out m).Inv := by
  obtain ⟨hwf, hin⟩ := h
  exact ⟨Memory.wf_writeBytes out m.mem _ hwf, Memory.within_writeBytes out m.mem _ hfit hin⟩

/-- A reset brings the invariant about, whatever the image and the state before (R39). -/
theorem inv_applyReset (image : ResetImage) (m : State) : (applyReset image m).Inv :=
  Memory.load_canonical m.memBytes image.mem

/-- Of the six forms in which a command ends only the written buffer reaches `MEM`, and there the range check has passed (R66). -/
theorem inv_of_exec {i : Instr} (h : m.Inv) (ht : exec i m = .next t) : t.Inv := by
  rcases exec_forms i m with ⟨_, he, -⟩ | ⟨_, he, -⟩ | ⟨_, he, -⟩ | ⟨_, _, he, -⟩ | ⟨out, he, hfit, -⟩ | ⟨_, he, -⟩ <;>
    cases he.symm.trans ht
  · exact h.of_same_mem rfl rfl
  · exact h.of_same_mem rfl rfl
  · exact h.of_same_mem rfl rfl
  · exact h.of_same_mem rfl rfl
  · exact inv_finishBuffer h hfit
  · exact h.of_same_mem rfl rfl

/-- The same of a word written to `CMD`, whether it decodes or is a reserved encoding (R94, R95). -/
theorem inv_of_runCommand {w : Word} (h : m.Inv) (ht : runCommand w m = .next t) : t.Inv := by
  cases hw : decode w with
  | ok i =>
    rw [runCommand_of_decode_ok m hw] at ht
    exact inv_of_exec (m := { m with cmd := w }) (h.of_same_mem rfl rfl) ht
  | error e =>
    cases (runCommand_of_decode_error m hw).symm.trans ht
    exact h.of_same_mem rfl rfl

/-- Every host action keeps the invariant: a buffer write, a command and a reset by the lemmas above, and the others do not reach `MEM`. -/
theorem inv_of_act {a : HostAction} (h : m.Inv) (ht : act a m = .next t) : t.Inv := by
  cases a with
  | regRead off bits =>
    obtain ⟨v, rfl⟩ := eq_observe_of_act_regRead ht
    exact h.of_same_mem (observe_mem _ m) (observe_memLast _ m)
  | regWrite off bits v =>
    by_cases hcmd : HostAction.regWrite off bits v = wr .cmd v
    · rw [hcmd, act_wr_cmd] at ht
      exact inv_of_runCommand h ht
    · obtain ⟨r, -, rfl⟩ := eq_writeReg_of_act_regWrite ht hcmd
      exact h.of_same_mem (writeReg_mem r v m) (writeReg_memLast r v m)
  | bufRead a =>
    obtain ⟨b, rfl⟩ := eq_observe_of_act_bufRead ht
    exact h.of_same_mem (observe_mem _ m) (observe_memLast _ m)
  | bufWrite a b =>
    have ha : a < m.memBytes := lt_memBytes_of_act_bufWrite ht
    obtain rfl := eq_write_of_act_bufWrite ht
    exact inv_write h b ha
  | reset image =>
    cases ht
    exact inv_applyReset image m

end

/-- Settles O18: a step performs the first action of the script in the state without that action, or idles. -/
theorem stepKeepsMemoryCanonical : Obligations.StepKeepsMemoryCanonical := by
  intro m t h ht
  cases hm : m.script with
  | nil =>
    obtain rfl : m = t := by simpa [step, hostStep, hm] using ht
    exact h
  | cons a rest =>
    rw [step_of_script hm] at ht
    exact inv_of_act (m := { m with script := rest }) (h.of_same_mem rfl rfl) ht

end Sys2Proof.Machine

/-! Proofs of the encoding statements: the byte fields of a word, the decoder's formats by field, and the pseudo-instructions as runs. -/
namespace Sys2Proof.Machine

/-! ### The fields of a word -/

theorem toNat_extractLsb'_eq_div (w : Word) (start len : Nat) :
    (w.extractLsb' start len).toNat = w.toNat / 2 ^ start % 2 ^ len := by
  rw [BitVec.extractLsb'_toNat, Nat.shiftRight_eq_div_pow]

theorem toNat_opField (w : Word) : (opField w).toNat = w.toNat / 2 ^ 0 % 2 ^ 8 := toNat_extractLsb'_eq_div w 0 8

theorem toNat_aField (w : Word) : (aField w).toNat = w.toNat / 2 ^ 8 % 2 ^ 8 := toNat_extractLsb'_eq_div w 8 8

theorem toNat_bField (w : Word) : (bField w).toNat = w.toNat / 2 ^ 16 % 2 ^ 8 := toNat_extractLsb'_eq_div w 16 8

/-- A word is determined by its four byte fields. -/
theorem word_ext {w v : Word} (hop : opField w = opField v) (ha : aField w = aField v) (hb : bField w = bField v)
    (htop : w.extractLsb' 24 8 = v.extractLsb' 24 8) : w = v := by
  simp only [← BitVec.toNat_inj, toNat_opField, toNat_aField, toNat_bField, toNat_extractLsb'_eq_div] at *
  have hw : w.toNat < 2 ^ 32 := w.isLt
  have hv : v.toNat < 2 ^ 32 := v.isLt
  omega

/-- A word is four bytes appended exactly when these are its fields. -/
theorem eq_append_iff_fields {w : Word} {z b a op : Byte} :
    w = z ++ b ++ a ++ op ↔ opField w = op ∧ aField w = a ∧ bField w = b ∧ w.extractLsb' 24 8 = z := by
  obtain ⟨hop, ha, hb, hz⟩ := Laws.EncodeFields.fields_of_append z b a op
  constructor
  · rintro rfl
    exact ⟨hop, ha, hb, hz⟩
  · rintro ⟨hop', ha', hb', hz'⟩
    exact word_ext (hop'.trans hop.symm) (ha'.trans ha.symm) (hb'.trans hb.symm) (hz'.trans hz.symm)

/-- A word encodes a command exactly when its fields are the command's (R91). -/
theorem encode_eq_iff_fields {i : Instr} {w : Word} :
    encode i = w ↔ opField w = opcodeOf i ∧ aField w = operandA i ∧ bField w = operandB i ∧ w.extractLsb' 24 8 = 0#8 :=
  eq_comm.trans eq_append_iff_fields

/-- The `dir` bit is the low bit of the byte field above the opcode (R92). -/
theorem dirField_eq (w : Word) : dirField w = if (aField w).getLsbD 0 then .inverse else .forward := by
  simp [dirField, aField]

theorem dirField_of_aField {w : Word} {d : Dir} (h : aField w = dirByte d) : dirField w = d := by
  rw [dirField_eq, h]
  cases d <;> rfl

/-- The bits that format M marks 0 below the operand `b` are those that the byte of the `dir` bit lacks (R91). -/
theorem aField_eq_dirByte_iff {w : Word} : aField w = dirByte (dirField w) ↔ aField w &&& 0xFE#8 = 0#8 := by
  have low : ∀ a : Byte, a = dirByte (if a.getLsbD 0 then .inverse else .forward) ↔ a &&& 0xFE#8 = 0#8 := by decide
  rw [dirField_eq, low]

/-! ### The bits that each format marks 0, by field -/

theorem bits31_16_eq_zero_iff {w : Word} :
    w.extractLsb' 16 16 = 0#16 ↔ w.extractLsb' 24 8 = 0#8 ∧ bField w = 0#8 := by
  simp only [← BitVec.toNat_inj, toNat_bField, toNat_extractLsb'_eq_div, BitVec.toNat_ofNat]
  omega

theorem bits31_8_eq_zero_iff {w : Word} :
    w.extractLsb' 8 24 = 0#24 ↔ w.extractLsb' 24 8 = 0#8 ∧ bField w = 0#8 ∧ aField w = 0#8 := by
  simp only [← BitVec.toNat_inj, toNat_aField, toNat_bField, toNat_extractLsb'_eq_div, BitVec.toNat_ofNat]
  omega

theorem bits31_9_eq_zero_iff {w : Word} :
    w.extractLsb' 9 23 = 0#23 ↔ w.extractLsb' 24 8 = 0#8 ∧ bField w = 0#8 ∧ aField w = dirByte (dirField w) := by
  have low : ∀ a : Byte, a &&& 0xFE#8 = 0#8 ↔ a.toNat < 2 := by decide
  rw [aField_eq_dirByte_iff, low]
  simp only [← BitVec.toNat_inj, toNat_aField, toNat_bField, toNat_extractLsb'_eq_div, BitVec.toNat_ofNat]
  omega

/-! ### What each format accepts -/

section
variable {w : Word} {i : Instr}

theorem decodeG2_eq_ok_iff {f : Byte → Byte → Instr} :
    decodeG2 f w = .ok i ↔ w.extractLsb' 24 8 = 0#8 ∧ f (aField w) (bField w) = i := by
  unfold decodeG2
  split <;> simp [*]

theorem decodeG1_eq_ok_iff {f : Byte → Instr} :
    decodeG1 f w = .ok i ↔ (w.extractLsb' 24 8 = 0#8 ∧ bField w = 0#8) ∧ f (aField w) = i := by
  rw [← bits31_16_eq_zero_iff]
  unfold decodeG1
  split <;> simp [*]

theorem decodeZ_eq_ok_iff {j : Instr} :
    decodeZ j w = .ok i ↔ (w.extractLsb' 24 8 = 0#8 ∧ bField w = 0#8 ∧ aField w = 0#8) ∧ j = i := by
  rw [← bits31_8_eq_zero_iff]
  unfold decodeZ
  split <;> simp [*]

theorem decodeM_eq_ok_iff {f : Dir → Instr} :
    decodeM f w = .ok i ↔
      (w.extractLsb' 24 8 = 0#8 ∧ bField w = 0#8 ∧ aField w = dirByte (dirField w)) ∧ f (dirField w) = i := by
  rw [← bits31_9_eq_zero_iff]
  unfold decodeM
  split <;> simp [*]

theorem decodeP_eq_ok_iff {f : Byte → Instr} :
    decodeP f w = .ok i ↔ (w.extractLsb' 24 8 = 0#8 ∧ bField w = 0#8) ∧ aField w ≠ 0#8 ∧ f (aField w) = i := by
  rw [← bits31_16_eq_zero_iff]
  unfold decodeP
  split
  · split <;> simp [*]
  · simp [*]

end

/-! ### The decoder of an opcode -/

/-- How the decoder reads a word with the opcode of `i`: the format of its row (R93). -/
def decoderOf : Instr → Word → Except Reserved Instr
  | .gfmul _ _ => decodeG2 .gfmul
  | .gfpow _ _ => decodeG2 .gfpow
  | .gfinv _ => decodeG1 .gfinv
  | .sboxb _ => decodeG1 .sboxb
  | .isboxb _ => decodeG1 .isboxb
  | .ecb _ => decodeM .ecb
  | .cbce _ => decodeM .cbce
  | .cbcd _ => decodeM .cbcd
  | .ctr _ => decodeM .ctr
  | .pad _ => decodeP .pad
  | i => decodeZ i

theorem decode_of_opcode {i : Instr} {w : Word} (h : opField w = opcodeOf i) : decode w = decoderOf i w := by
  unfold decode
  rw [h]
  cases i <;> rfl

/-- One command of each row of the opcode map, in its order (R93). -/
def rowCommands : List Instr :=
  [.gfmul 0#8 0#8, .gfpow 0#8 0#8, .gfinv 0#8, .sboxb 0#8, .isboxb 0#8, .subb, .isubb, .shrow, .ishrow, .mixc, .imixc, .addrk,
    .ksload, .ksnext, .ksprev, .encblk, .decblk, .ecb .forward, .cbce .forward, .cbcd .forward, .ctr .forward, .pad 0#8, .unpad]

/-- A word that decodes has the opcode of a command. -/
theorem exists_opcodeOf_of_decode_ok {w : Word} {i : Instr} (h : decode w = .ok i) : ∃ j, opField w = opcodeOf j := by
  have listed : (opField w).toNat ∈ rowCommands.map fun j => (opcodeOf j).toNat := by
    unfold decode at h
    split at h
    case h_24 => cases h
    all_goals
      next hop =>
        rw [hop]
        decide
  obtain ⟨j, -, hj⟩ := List.mem_map.1 listed
  exact ⟨j, BitVec.eq_of_toNat_eq hj.symm⟩

/-! ### Decoding and encoding undo each other -/

theorem decode_encode {i : Instr} (hi : wellFormed i = true) : decode (encode i) = .ok i := by
  obtain ⟨hop, ha, hb, htop⟩ := encode_eq_iff_fields.1 (Eq.refl (encode i))
  rw [decode_of_opcode hop]
  cases i with
  | gfmul _ _ | gfpow _ _ => exact decodeG2_eq_ok_iff.2 ⟨htop, by rw [ha, hb]; rfl⟩
  | gfinv _ | sboxb _ | isboxb _ => exact decodeG1_eq_ok_iff.2 ⟨⟨htop, hb⟩, by rw [ha]; rfl⟩
  | ecb d | cbce d | cbcd d | ctr d =>
    have hd := dirField_of_aField ha
    exact decodeM_eq_ok_iff.2 ⟨⟨htop, hb, hd.symm ▸ ha⟩, by rw [hd]⟩
  | pad bs =>
    have hbs : bs ≠ 0#8 := by simpa [wellFormed] using hi
    exact decodeP_eq_ok_iff.2 ⟨⟨htop, hb⟩, ha.symm ▸ hbs, by rw [ha]; rfl⟩
  | _ => exact decodeZ_eq_ok_iff.2 ⟨⟨htop, hb, ha⟩, rfl⟩

theorem encode_of_decode_ok {w : Word} {i : Instr} (h : decode w = .ok i) : encode i = w ∧ wellFormed i = true := by
  obtain ⟨j, hop⟩ := exists_opcodeOf_of_decode_ok h
  rw [decode_of_opcode hop] at h
  rw [encode_eq_iff_fields]
  cases j with
  | gfmul _ _ | gfpow _ _ =>
    obtain ⟨htop, rfl⟩ := decodeG2_eq_ok_iff.1 h
    exact ⟨⟨hop, rfl, rfl, htop⟩, rfl⟩
  | gfinv _ | sboxb _ | isboxb _ =>
    obtain ⟨⟨htop, hb⟩, rfl⟩ := decodeG1_eq_ok_iff.1 h
    exact ⟨⟨hop, rfl, hb, htop⟩, rfl⟩
  | ecb _ | cbce _ | cbcd _ | ctr _ =>
    obtain ⟨⟨htop, hb, ha⟩, rfl⟩ := decodeM_eq_ok_iff.1 h
    exact ⟨⟨hop, ha, hb, htop⟩, rfl⟩
  | pad _ =>
    obtain ⟨⟨htop, hb⟩, hbs, rfl⟩ := decodeP_eq_ok_iff.1 h
    exact ⟨⟨hop, rfl, hb, htop⟩, by simpa [wellFormed] using hbs⟩
  | _ =>
    obtain ⟨⟨htop, hb, ha⟩, rfl⟩ := decodeZ_eq_ok_iff.1 h
    exact ⟨⟨hop, ha, hb, htop⟩, rfl⟩

theorem opField_of_decode_ok {w : Word} {i : Instr} (h : decode w = .ok i) : opField w = opcodeOf i :=
  (encode_eq_iff_fields.1 (encode_of_decode_ok h).1).1

/-- Settles O1, by the five formats: the fields of the encoded word are the command's, and each format reads them back. -/
theorem decodeUndoesEncode : Obligations.DecodeUndoesEncode := fun _ => decode_encode

/-- Settles O2, by the five formats: the bits a format checks and the fields it reads are the whole word. -/
theorem encodeUndoesDecode : Obligations.EncodeUndoesDecode := fun _ _ => encode_of_decode_ok

/-! ### The opcode map -/

/-- The bits of the byte field above the opcode that the format of a command marks 0 (R91). -/
def zerosA : Instr → Byte
  | .gfmul _ _ | .gfpow _ _ | .gfinv _ | .sboxb _ | .isboxb _ | .pad _ => 0x00#8
  | .ecb _ | .cbce _ | .cbcd _ | .ctr _ => 0xFE#8
  | _ => 0xFF#8

/-- The bits of the next byte field that the format of a command marks 0 (R91). -/
def zerosB : Instr → Byte
  | .gfmul _ _ | .gfpow _ _ => 0x00#8
  | _ => 0xFF#8

/-- The row of a command: it compares the opcode and the bits that the command's format marks 0 (R93). -/
def rowOf (i : Instr) : OpRow :=
  ⟨opcodeOf i, 0xFF#8 ++ zerosB i ++ zerosA i ++ 0xFF#8, 0#8 ++ 0#8 ++ 0#8 ++ opcodeOf i⟩

theorem opcodeRows_eq_map_rowOf : opcodeRows = rowCommands.map rowOf := rfl

theorem rowOf_mem_opcodeRows (i : Instr) : rowOf i ∈ opcodeRows := by
  cases i <;>
    simp only [opcodeRows_eq_map_rowOf, rowCommands, rowOf, opcodeOf, zerosA, zerosB, List.map_cons, List.mem_cons, true_or, or_true]

theorem byte_and_ff (x : Byte) : x &&& 0xFF#8 = x := BitVec.and_allOnes

/-- The fields of a word above the opcode fit the format of a command: a 0 in each bit that the format marks 0, and for `PAD` a block
size (R91, R94). -/
def FitsFormat (i : Instr) (w : Word) : Prop :=
  w.extractLsb' 24 8 = 0#8 ∧ bField w &&& zerosB i = 0#8 ∧ aField w &&& zerosA i = 0#8 ∧ (opcodeOf i = 0x50#8 → aField w ≠ 0#8)

/-- The row of a command compares the opcode and the format, mask and match byte by byte. -/
theorem rowMatches_rowOf_iff {i : Instr} {w : Word} :
    rowMatches (rowOf i) w = true ↔ opField w = opcodeOf i ∧ FitsFormat i w := by
  obtain ⟨hop, ha, hb, htop⟩ := Laws.EncodeFields.fields_of_append 0xFF#8 (zerosB i) (zerosA i) 0xFF#8
  have hmask : w &&& (rowOf i).mask = (rowOf i).bits ↔ opField w = opcodeOf i ∧ aField w &&& zerosA i = 0#8 ∧
      bField w &&& zerosB i = 0#8 ∧ w.extractLsb' 24 8 = 0#8 := by
    simp only [rowOf, eq_append_iff_fields, opField, aField, bField, BitVec.extractLsb'_and, hop, ha, hb, htop, byte_and_ff]
  have hrow : (rowOf i).op = opcodeOf i := rfl
  simp only [rowMatches, FitsFormat, Bool.and_eq_true, Bool.or_eq_true, beq_iff_eq, bne_iff_ne, hmask, hrow, imp_iff_not_or]
  tauto

/-- The decoder of an opcode accepts exactly the words that fit its format. -/
theorem exists_decoderOf_eq_ok_iff (i : Instr) (w : Word) : (∃ j, decoderOf i w = .ok j) ↔ FitsFormat i w := by
  unfold FitsFormat
  cases i with
  | gfmul _ _ | gfpow _ _ => simp [decoderOf, decodeG2_eq_ok_iff, zerosA, zerosB, opcodeOf]
  | gfinv _ | sboxb _ | isboxb _ => simp [decoderOf, decodeG1_eq_ok_iff, zerosA, zerosB, opcodeOf, byte_and_ff]
  | ecb _ | cbce _ | cbcd _ | ctr _ =>
    simp [decoderOf, decodeM_eq_ok_iff, zerosA, zerosB, opcodeOf, byte_and_ff, aField_eq_dirByte_iff]
  | pad _ => simp [decoderOf, decodeP_eq_ok_iff, zerosA, zerosB, opcodeOf, byte_and_ff, and_assoc]
  | _ => simp [decoderOf, decodeZ_eq_ok_iff, zerosA, zerosB, opcodeOf, byte_and_ff]

/-- A word decodes to a command with the opcode of `i` exactly when the row of `i` matches it (R93). -/
theorem exists_decode_iff_rowMatches (i : Instr) (w : Word) :
    (∃ j, decode w = .ok j ∧ opcodeOf j = opcodeOf i) ↔ rowMatches (rowOf i) w = true := by
  rw [rowMatches_rowOf_iff, ← exists_decoderOf_eq_ok_iff]
  constructor
  · rintro ⟨j, hj, hop⟩
    have hop : opField w = opcodeOf i := (opField_of_decode_ok hj).trans hop
    exact ⟨hop, j, (decode_of_opcode hop).symm.trans hj⟩
  · rintro ⟨hop, j, hj⟩
    have hj : decode w = .ok j := (decode_of_opcode hop).trans hj
    exact ⟨j, hj, (opField_of_decode_ok hj).symm.trans hop⟩

/-- Settles O3: each row is the row of a command, and the row and the decoder of a command ask the same of a word. -/
theorem wordEncodesExactlyWhenMaskMatches : Obligations.WordEncodesExactlyWhenMaskMatches := by
  refine ⟨rfl, fun r hr w => ?rows, rfl, rfl, rfl, rfl, rfl, rfl, rfl, rfl, rfl, rfl⟩
  rw [opcodeRows_eq_map_rowOf] at hr
  obtain ⟨i, -, rfl⟩ := List.mem_map.1 hr
  exact exists_decode_iff_rowMatches i w

/-- A word that no row matches is a reserved encoding: each command has a row (R94). -/
theorem decode_error_of_no_row {w : Word} (h : ∀ r ∈ opcodeRows, rowMatches r w = false) : ∃ e, decode w = .error e := by
  cases hw : decode w with
  | error e => exact ⟨e, rfl⟩
  | ok i =>
    have hrow : rowMatches (rowOf i) w = true := (exists_decode_iff_rowMatches i w).1 ⟨i, hw, rfl⟩
    cases (h _ (rowOf_mem_opcodeRows i)).symm.trans hrow

theorem step_wr_cmd_of_decode_error {m : State} {rest : List HostAction} {w : Word} {e : Reserved}
    (h : m.script = wr .cmd w :: rest) (hw : decode w = .error e) :
    step m = .next { m with script := rest, cmd := w, status := .errCmd } :=
  (step_wr_cmd h).trans (runCommand_of_decode_error _ hw)

/-- Settles O5: a word that decodes is matched by the row of its command. -/
theorem reservedWordFailsWithErrCmd : Obligations.ReservedWordFailsWithErrCmd := by
  intro m rest w h hno
  obtain ⟨e, he⟩ := decode_error_of_no_row hno
  exact step_wr_cmd_of_decode_error h he

/-- Settles O58: the word is rejected for its block size. -/
theorem padZeroFailsAsItsWord : Obligations.PadZeroFailsAsItsWord :=
  ⟨fun _ => rfl, fun _ _ h => step_wr_cmd_of_decode_error h (rfl : decode 0x00000050#32 = .error .padSizeZero)⟩

/-- Settles O4, by running the decoder on each word. -/
theorem writtenOutWordsDecode : Obligations.WrittenOutWordsDecode :=
  ⟨⟨rfl, rfl, rfl, rfl, rfl, rfl, rfl, rfl, rfl, rfl, rfl, rfl⟩, ⟨rfl, rfl, rfl, rfl, rfl, rfl, rfl, rfl, rfl, rfl, rfl⟩,
    ⟨rfl, rfl, rfl, rfl, rfl⟩⟩

/-! ### Pseudo-instructions as runs -/

theorem writeReg_setScript (r : Reg) (v : Word) (m : State) (script : List HostAction) :
    { writeReg r v m with script := script } = writeReg r v { m with script := script } := by
  cases r <;> rfl

section
variable {rest : List HostAction}

/-- A run over register writes at the head of the script stores each word in turn (R97). -/
theorem run_wr (vs : List (Reg × Word)) : ∀ {m : State}, (∀ v ∈ vs, v.1 ≠ .cmd) →
    m.script = vs.map (fun v => wr v.1 v.2) ++ rest →
    Sys2Proof.core.run vs.length m = .next (vs.foldl (fun t v => writeReg v.1 v.2 t) { m with script := rest }) := by
  induction vs with
  | nil =>
    rintro m - rfl
    rfl
  | cons v vs ih =>
    intro m hcmd h
    obtain ⟨hv, hvs⟩ := List.forall_mem_cons.1 hcmd
    rw [List.length_cons, run_succ_of_step Sys2Proof.core _ (step_wr h hv), ih hvs (writeReg_script _ _ _), writeReg_setScript]
    rfl

/-- A run over buffer writes to rising addresses writes the byte string (R76, R98). -/
theorem run_scriptWrbuf (bs : List Byte) : ∀ {m : State} {addr : Nat}, addr + bs.length ≤ m.memBytes →
    m.script = scriptWrbuf addr bs ++ rest →
    Sys2Proof.core.run bs.length m = .next { m with script := rest, mem := Memory.writeBytes m.mem addr bs } := by
  induction bs with
  | nil =>
    rintro m addr - rfl
    rfl
  | cons b bs ih =>
    intro m addr hfit h
    rw [List.length_cons] at hfit ⊢
    have hrest : addr + 1 + bs.length ≤ m.memBytes := by omega
    exact (run_succ_of_step Sys2Proof.core _ (step_bufWrite h (by omega))).trans (ih hrest rfl)

/-- The four words of `LDBLK` are stored one after the other. -/
theorem run_scriptLdblk (reg : Fin 4 → Reg) {m : State} {x : Block} (hreg : ∀ j, reg j ≠ .cmd)
    (h : m.script = scriptLdblk reg x ++ rest) :
    Sys2Proof.core.run 4 m = .next (writeReg (reg 3) (laneWord x.q3) (writeReg (reg 2) (laneWord x.q2)
      (writeReg (reg 1) (laneWord x.q1) (writeReg (reg 0) (laneWord x.q0) { m with script := rest })))) :=
  run_wr [(reg 0, laneWord x.q0), (reg 1, laneWord x.q1), (reg 2, laneWord x.q2), (reg 3, laneWord x.q3)] (by simp [hreg]) h

end

theorem scriptWrbuf_getElem? (bs : List Byte) : ∀ {addr i : Nat} {b : Byte}, bs[i]? = some b →
    (scriptWrbuf addr bs)[i]? = some (HostAction.bufWrite (addr + i) b) := by
  induction bs with
  | nil => intro addr i b h; cases h
  | cons c bs ih =>
    intro addr i b h
    cases i with
    | zero => cases h; rfl
    | succ i =>
      have hrest : (scriptWrbuf (addr + 1) bs)[i]? = some (HostAction.bufWrite (addr + 1 + i) b) := ih h
      rwa [Nat.add_right_comm, Nat.add_assoc] at hrest

theorem length_scriptWrbuf (bs : List Byte) : ∀ addr, (scriptWrbuf addr bs).length = bs.length := by
  induction bs with
  | nil => intro _; rfl
  | cons b bs ih => intro addr; exact congrArg (· + 1) (ih _)

theorem setBlockQuad_lanes (y x : Block) :
    setBlockQuad (setBlockQuad (setBlockQuad (setBlockQuad y 0 (laneQuad (laneWord x.q0))) 1 (laneQuad (laneWord x.q1)))
      2 (laneQuad (laneWord x.q2))) 3 (laneQuad (laneWord x.q3)) = x := by
  simp only [laneQuad_laneWord]
  rfl

theorem setNonceQuad_lanes (y x : Nonce) :
    setNonceQuad (setNonceQuad y 0 (laneQuad (laneWord x.q0))) 1 (laneQuad (laneWord x.q1)) = x := by
  simp only [laneQuad_laneWord]
  rfl

/-- Settles O17: the five command lines and the packed words are the model's own, the scripts of register writes and of buffer writes
run as lists, and a register whose words are all written holds the bytes packed into them. -/
theorem pseudoInstructionsExpand : Obligations.PseudoInstructionsExpand := by
  refine ⟨⟨rfl, rfl, rfl, rfl, rfl⟩, fun reg x => ⟨fun j => laneWord (blockQuad x j), rfl, fun j => toNat_laneWord _⟩,
    fun n => ⟨fun j => laneWord (nonceQuad n j), rfl, fun j => toNat_laneWord _⟩,
    fun addr bs => ⟨length_scriptWrbuf bs addr, fun i b => scriptWrbuf_getElem? bs⟩, fun _ _ _ => rfl,
    fun m x rest => ?ldblk, fun m n rest h => ?ldnonce, fun m addr bs rest hfit h => run_scriptWrbuf bs hfit h,
    fun m s d l rest h => ?setbuf⟩
  case ldblk =>
    exact ⟨fun h => (run_scriptLdblk .k (fun _ => nofun) h).trans (by simp only [writeReg, setBlockQuad_lanes]),
      fun h => (run_scriptLdblk .rk (fun _ => nofun) h).trans (by simp only [writeReg, setBlockQuad_lanes]),
      fun h => (run_scriptLdblk .s (fun _ => nofun) h).trans (by simp only [writeReg, setBlockQuad_lanes]),
      fun h => (run_scriptLdblk .cv (fun _ => nofun) h).trans (by simp only [writeReg, setBlockQuad_lanes])⟩
  case ldnonce =>
    refine (run_wr [(.nonce 0, laneWord n.q0), (.nonce 1, laneWord n.q1)] (by simp) h).trans ?_
    simp only [List.foldl, writeReg, setNonceQuad_lanes]
  case setbuf => exact run_wr [(.src, s), (.dst, d), (.len, l)] (by simp) h

end Sys2Proof.Machine

/-! Proofs of the field arithmetic statements: a byte as an element of GF(2)[x] modulo the reduction polynomial, in which `gfMul` is
multiplication and `gfPow` the power, so that the laws of the arithmetic are those of a commutative ring. -/
namespace Sys2Proof.Machine

/-! ### The polynomial of a byte -/

section
open Polynomial (X)

/-- The polynomial over GF(2) that a byte stands for (R120). -/
noncomputable def bytePoly (a : Byte) : Polynomial (ZMod 2) :=
  ∑ i ∈ Finset.range 8, if a.getLsbD i then X ^ i else 0

/-- The reduction polynomial (R120). -/
noncomputable def reductionPoly : Polynomial (ZMod 2) := X ^ 8 + X ^ 4 + X ^ 3 + X + 1

theorem degree_reductionPoly : reductionPoly.degree = 8 := by
  unfold reductionPoly
  compute_degree!

theorem monic_reductionPoly : reductionPoly.Monic := by
  unfold reductionPoly
  monicity!

/-- The coefficient of `x^i` is bit `i`, also from bit 8 on, where both are 0. -/
theorem coeff_bytePoly (a : Byte) (i : Nat) : (bytePoly a).coeff i = if a.getLsbD i then 1 else 0 := by
  have term : ∀ j, (if a.getLsbD j then (X ^ j : Polynomial (ZMod 2)) else 0).coeff i =
      if i = j then (if a.getLsbD i then 1 else 0) else 0 := fun j => by
    by_cases hij : i = j
    · subst hij; split <;> simp
    · split <;> simp [Polynomial.coeff_X_pow, hij]
  simp only [bytePoly, Polynomial.finsetSum_coeff, term, Finset.sum_ite_eq, Finset.mem_range]
  by_cases hi : i < 8
  · rw [if_pos hi]
  · rw [if_neg hi, BitVec.getLsbD_of_ge a i (by omega)]
    rfl

theorem bytePoly_injective : Function.Injective bytePoly := by
  intro a b h
  refine BitVec.eq_of_getLsbD_eq fun i _ => ?_
  have hcoeff : (bytePoly a).coeff i = (bytePoly b).coeff i := by rw [h]
  rw [coeff_bytePoly, coeff_bytePoly] at hcoeff
  cases ha : a.getLsbD i <;> cases hb : b.getLsbD i <;> simp_all

theorem degree_bytePoly_lt (a : Byte) : (bytePoly a).degree < reductionPoly.degree := by
  rw [degree_reductionPoly]
  refine (Polynomial.degree_lt_iff_coeff_zero _ 8).2 fun i hi => ?_
  rw [coeff_bytePoly, BitVec.getLsbD_of_ge a i hi]
  rfl

/-- Addition of the polynomials is exclusive-or of the bytes (R121). -/
theorem bytePoly_xor (a b : Byte) : bytePoly (a ^^^ b) = bytePoly a + bytePoly b := by
  ext i
  rw [Polynomial.coeff_add, coeff_bytePoly, coeff_bytePoly, coeff_bytePoly, BitVec.getLsbD_xor]
  cases a.getLsbD i <;> cases b.getLsbD i <;> decide

theorem bytePoly_zero : bytePoly 0#8 = 0 := by simp [bytePoly]

theorem bytePoly_one : bytePoly 1#8 = 1 := by simp [bytePoly]

/-- The shift multiplies by `x`, and drops the coefficient of `x^8`. -/
theorem bytePoly_shiftLeft (a : Byte) : bytePoly (a <<< 1) + (if a.getLsbD 7 then X ^ 8 else 0) = X * bytePoly a := by
  simp only [bytePoly, Finset.sum_range_succ, Finset.sum_range_zero, mul_add, mul_ite, mul_zero, ← pow_succ', BitVec.getLsbD_shiftLeft]
  simp

/-- Doubling is multiplication by `x`, less the reduction polynomial where the product has degree 8 (R122). -/
theorem bytePoly_gfXtime (a : Byte) : bytePoly (gfXtime a) = X * bytePoly a + if a.getLsbD 7 then reductionPoly else 0 := by
  have constant : bytePoly 0x1B#8 = X ^ 4 + X ^ 3 + X + 1 := by
    simp [bytePoly, Finset.sum_range_succ]
    ring
  rw [← bytePoly_shiftLeft, gfXtime]
  split
  · rw [bytePoly_xor, constant, reductionPoly]
    linear_combination (-1 : Polynomial (ZMod 2)) * CharTwo.add_self_eq_zero (X ^ 8 : Polynomial (ZMod 2))
  · simp

end

/-! ### A byte as an element of the field -/

/-- The element of GF(2)[x] modulo the reduction polynomial that a byte stands for (R120). -/
noncomputable def fieldElement (a : Byte) : AdjoinRoot reductionPoly := AdjoinRoot.mk reductionPoly (bytePoly a)

/-- A byte is the remainder of its own polynomial. -/
theorem bytePoly_modByMonic (a : Byte) : bytePoly a %ₘ reductionPoly = bytePoly a :=
  (Polynomial.modByMonic_eq_self_iff monic_reductionPoly).2 (degree_bytePoly_lt a)

/-- A byte is the element of a polynomial exactly when it is the remainder. -/
theorem fieldElement_eq_mk_iff {a : Byte} {p : Polynomial (ZMod 2)} :
    fieldElement a = AdjoinRoot.mk reductionPoly p ↔ bytePoly a = p %ₘ reductionPoly := by
  rw [fieldElement, AdjoinRoot.mk_eq_mk, ← Polynomial.modByMonic_eq_zero_iff_dvd monic_reductionPoly, Polynomial.sub_modByMonic,
    bytePoly_modByMonic, sub_eq_zero]

theorem fieldElement_injective : Function.Injective fieldElement := fun _ b h =>
  bytePoly_injective ((fieldElement_eq_mk_iff.1 h).trans (bytePoly_modByMonic b))

@[simp] theorem fieldElement_zero : fieldElement 0#8 = 0 := by rw [fieldElement, bytePoly_zero, map_zero]

@[simp] theorem fieldElement_one : fieldElement 1#8 = 1 := by rw [fieldElement, bytePoly_one, map_one]

@[simp] theorem fieldElement_xor (a b : Byte) : fieldElement (a ^^^ b) = fieldElement a + fieldElement b := by
  rw [fieldElement, bytePoly_xor, map_add]
  rfl

@[simp] theorem fieldElement_gfXtime (a : Byte) : fieldElement (gfXtime a) = AdjoinRoot.root reductionPoly * fieldElement a := by
  rw [fieldElement, bytePoly_gfXtime, map_add, map_mul, AdjoinRoot.mk_X]
  split <;> simp [fieldElement]

/-- The element of the `n` bits of `b` from bit `i` on, bit `i` its lowest coefficient. -/
noncomputable def bitsElement (b : Byte) (n i : Nat) : AdjoinRoot reductionPoly :=
  ∑ j ∈ Finset.range n, if b.getLsbD (i + j) then AdjoinRoot.root reductionPoly ^ j else 0

theorem bitsElement_succ (b : Byte) (n i : Nat) :
    bitsElement b (n + 1) i = (if b.getLsbD i then 1 else 0) + AdjoinRoot.root reductionPoly * bitsElement b n (i + 1) := by
  simp only [bitsElement, Finset.sum_range_succ', Finset.mul_sum, mul_ite, mul_zero, ← pow_succ', pow_zero, Nat.add_zero,
    Nat.add_assoc, Nat.add_comm 1]
  exact add_comm _ _

theorem bitsElement_eight (b : Byte) : bitsElement b 8 0 = fieldElement b := by
  simp only [bitsElement, fieldElement, bytePoly, map_sum, apply_ite (AdjoinRoot.mk reductionPoly), map_pow, AdjoinRoot.mk_X,
    map_zero, Nat.zero_add]

/-- The loop adds the product of the multiplicand and the bits still to read to the partial product. -/
theorem fieldElement_gfMulLoop (b : Byte) (n : Nat) : ∀ (i : Nat) (p a : Byte),
    fieldElement (gfMulLoop b n i p a) = fieldElement p + fieldElement a * bitsElement b n i := by
  induction n with
  | zero => intro i p a; simp [gfMulLoop, bitsElement]
  | succ n ih =>
    intro i p a
    rw [gfMulLoop, ih, bitsElement_succ, fieldElement_gfXtime]
    split
    · rw [fieldElement_xor]
      ring
    · ring

/-- Multiplication of bytes is multiplication modulo the reduction polynomial (R123). -/
@[simp] theorem fieldElement_gfMul (a b : Byte) : fieldElement (gfMul a b) = fieldElement a * fieldElement b := by
  rw [gfMul, fieldElement_gfMulLoop, bitsElement_eight, fieldElement_zero, zero_add]

/-- Settles O30: the loop multiplies in the field, and a byte is the remainder of every polynomial of its element. -/
theorem multiplicationIsThePolynomialProduct : Obligations.MultiplicationIsThePolynomialProduct := by
  intro poly hpoly a b
  obtain rfl : poly = bytePoly := funext hpoly
  have hmk : fieldElement (gfMul a b) = AdjoinRoot.mk reductionPoly (bytePoly a * bytePoly b) := by
    rw [fieldElement_gfMul, map_mul]
    rfl
  exact ⟨bytePoly_xor a b, fieldElement_eq_mk_iff.1 hmk⟩

/-! ### Powers -/

theorem fieldElement_gfPowLoop (d : Nat) : ∀ (r base : Byte) {n : Nat}, n < 2 ^ d →
    fieldElement (gfPowLoop d r base n) = fieldElement r * fieldElement base ^ n := by
  induction d with
  | zero =>
    intro r base n hn
    obtain rfl : n = 0 := by omega
    simp [gfPowLoop]
  | succ d ih =>
    intro r base n hn
    have digit : fieldElement (if n % 2 = 1 then gfMul r base else r) = fieldElement r * fieldElement base ^ (n % 2) := by
      obtain h | h := Nat.mod_two_eq_zero_or_one n <;> simp [h]
    calc fieldElement (gfPowLoop (d + 1) r base n)
      _ = fieldElement r * fieldElement base ^ (n % 2) * (fieldElement base * fieldElement base) ^ (n / 2) := by
        rw [gfPowLoop, ih _ _ (by omega), digit, fieldElement_gfMul]
      _ = fieldElement r * fieldElement base ^ (n % 2 + 2 * (n / 2)) := by
        rw [← pow_two, ← pow_mul, mul_assoc, ← pow_add]
      _ = fieldElement r * fieldElement base ^ n := by rw [Nat.mod_add_div]

/-- Repeated squaring computes the power in the field (R124). -/
@[simp] theorem fieldElement_gfPow (a : Byte) (n : Nat) : fieldElement (gfPow a n) = fieldElement a ^ n := by
  rw [gfPow, fieldElement_gfPowLoop _ _ _ Nat.lt_log2_self]
  simp

theorem gfPow_zero (a : Byte) : gfPow a 0 = 1#8 := fieldElement_injective (by simp)

theorem gfPow_one (a : Byte) : gfPow a 1 = a := fieldElement_injective (by simp)

theorem gfPow_succ (a : Byte) (n : Nat) : gfPow a (n + 1) = gfMul (gfPow a n) a :=
  fieldElement_injective (by simp [pow_succ])

theorem gfPow_add (a : Byte) (m n : Nat) : gfPow a (m + n) = gfMul (gfPow a m) (gfPow a n) :=
  fieldElement_injective (by simp [pow_add])

theorem one_gfPow (n : Nat) : gfPow 1#8 n = 1#8 := fieldElement_injective (by simp)

theorem zero_gfPow {n : Nat} (hn : n ≠ 0) : gfPow 0#8 n = 0#8 := fieldElement_injective (by simp [hn])

/-- Settles O31: a power of a byte is the power of its element of the field, which is a product of copies. -/
theorem powerIsTheRepeatedProduct : Obligations.PowerIsTheRepeatedProduct :=
  ⟨fun a n => ⟨gfPow_zero a, gfPow_succ a n⟩, fun n hn => zero_gfPow (by omega),
    by decide +kernel, by decide +kernel, by decide +kernel, by decide +kernel⟩

/-! ### The laws -/

theorem gfMul_comm (a b : Byte) : gfMul a b = gfMul b a := fieldElement_injective (by simp [mul_comm])

theorem gfMul_assoc (a b c : Byte) : gfMul (gfMul a b) c = gfMul a (gfMul b c) := fieldElement_injective (by simp [mul_assoc])

@[simp] theorem gfMul_zero (a : Byte) : gfMul a 0#8 = 0#8 := fieldElement_injective (by simp)

@[simp] theorem zero_gfMul (a : Byte) : gfMul 0#8 a = 0#8 := fieldElement_injective (by simp)

@[simp] theorem gfMul_one (a : Byte) : gfMul a 1#8 = a := fieldElement_injective (by simp)

@[simp] theorem one_gfMul (a : Byte) : gfMul 1#8 a = a := fieldElement_injective (by simp)

/-- One turn of the loop with the bit `x` set. -/
theorem gfMul_two (a : Byte) : gfMul a 2#8 = gfXtime a := by
  simp [gfMul, gfMulLoop]

theorem gfMul_three (a : Byte) : gfMul a 3#8 = gfXtime a ^^^ a := by
  rw [show (3#8 : Byte) = 2#8 ^^^ 1#8 from rfl, gfMul_xor_right, gfMul_two, gfMul_one]

/-- The inverse of a nonzero byte (R125), by the table of the inverses. -/
theorem gfMul_gfInv {a : Byte} (ha : a ≠ 0#8) : gfMul a (gfInv a) = 1#8 := by
  rw [gfInv_eq_table]
  exact (by decide +kernel : ∀ a : Byte, a ≠ 0#8 → gfMul a (tableAt invRows a) = 1#8) a ha

theorem eq_zero_of_gfMul_eq_zero {a b : Byte} (h : gfMul a b = 0#8) (ha : a ≠ 0#8) : b = 0#8 :=
  calc b
    _ = gfMul (gfMul a (gfInv a)) b := by rw [gfMul_gfInv ha, one_gfMul]
    _ = gfMul (gfInv a) (gfMul a b) := by rw [gfMul_comm a, gfMul_assoc]
    _ = 0#8 := by rw [h, gfMul_zero]

theorem gfPow_255 {a : Byte} (ha : a ≠ 0#8) : gfPow a 255 = 1#8 := by
  rw [gfPow_succ, gfMul_comm]
  exact gfMul_gfInv ha

theorem gfInv_zero : gfInv 0#8 = 0#8 := zero_gfPow (by decide)

theorem gfInv_one : gfInv 1#8 = 1#8 := one_gfPow 254

theorem gfInv_gfInv (a : Byte) : gfInv (gfInv a) = a := by
  by_cases ha : a = 0#8
  · rw [ha, gfInv_zero, gfInv_zero]
  have hinv : gfInv a ≠ 0#8 := fun h => by
    have hone := gfMul_gfInv ha
    rw [h, gfMul_zero] at hone
    cases hone
  calc gfInv (gfInv a)
    _ = gfMul (gfMul a (gfInv a)) (gfInv (gfInv a)) := by rw [gfMul_gfInv ha, one_gfMul]
    _ = a := by rw [gfMul_assoc, gfMul_gfInv hinv, gfMul_one]

/-- Settles O29: the laws are those of the field, and the inverse of each nonzero byte is read off the table INV. -/
theorem fieldLaws : Obligations.FieldLaws :=
  ⟨fun a b c => ⟨gfMul_comm a b, (gfMul_assoc a b c).symm, gfMul_xor_right a b c⟩,
    fun a => ⟨gfMul_one a, gfMul_zero a, gfMul_two a, gfMul_three a⟩,
    fun _ _ h => or_iff_not_imp_left.2 (eq_zero_of_gfMul_eq_zero h),
    fun a ha => ⟨gfPow_255 ha, gfMul_gfInv ha, gfInv_gfInv a⟩, gfPow_add⟩

/-! ### The commands -/

/-- Without an operand in bits 23..16 the upper half of the word is zero (R91). -/
theorem encode_of_operandB_eq_zero {i : Instr} (hb : operandB i = 0#8) : encode i = 0#16 ++ operandA i ++ opcodeOf i := by
  rw [encode, hb]
  rfl

/-- Settles O28: the words are encodings, and the corner cases are laws of the field. -/
theorem fieldCommandsWriteFr : Obligations.FieldCommandsWriteFr := by
  refine ⟨fun a b => ⟨decode_encode (i := .gfmul a b) rfl, decode_encode (i := .gfpow a b) rfl, ?gfinv⟩, ?reserved,
    fun _ _ _ => ⟨rfl, rfl, rfl⟩, fun a b => ⟨zero_gfMul b, gfMul_zero a, gfMul_one a, gfMul_comm a b⟩,
    fun a => ⟨gfPow_zero a, gfPow_one a, gfPow_255⟩, fun n => ⟨one_gfPow _, fun hn => zero_gfPow ?nonzero⟩,
    ⟨gfInv_zero, gfInv_one, fun _ => rfl⟩, ⟨rfl, by decide +kernel⟩, ⟨rfl, by decide +kernel⟩, ⟨rfl, by decide +kernel⟩⟩
  case gfinv => exact encode_of_operandB_eq_zero (i := .gfinv a) rfl ▸ decode_encode rfl
  case reserved =>
    intro w hop htop
    obtain hop | hop := hop
    · exact (decode_of_opcode (i := .gfmul 0#8 0#8) hop).trans (if_neg htop)
    · exact (decode_of_opcode (i := .gfpow 0#8 0#8) hop).trans (if_neg htop)
  case nonzero => exact fun h => hn (BitVec.eq_of_toNat_eq h)

/-! ### The tables -/

/-- Settles O32, by the entries of the tables of multiples; the multiple by 3 is the sum of those by 2 and by 1. -/
theorem constantTablesEqualTheFunctions : Obligations.ConstantTablesEqualTheFunctions := by
  have mul2 : ∀ x : Byte, tableAt mul2Rows x = gfMul 2#8 x := by decide +kernel
  have mul9 : ∀ x : Byte, tableAt mul9Rows x = gfMul 9#8 x := by decide +kernel
  have mul11 : ∀ x : Byte, tableAt mul11Rows x = gfMul 11#8 x := by decide +kernel
  have mul13 : ∀ x : Byte, tableAt mul13Rows x = gfMul 13#8 x := by decide +kernel
  have mul14 : ∀ x : Byte, tableAt mul14Rows x = gfMul 14#8 x := by decide +kernel
  intro x
  refine ⟨mul2 x, mul9 x, mul11 x, mul13 x, mul14 x, ?_, ?_, ?_, ?_⟩
  · rw [gfInv_eq_table]
  · rw [mul2 x, show (3#8 : Byte) = 2#8 ^^^ 1#8 from rfl, gfMul_xor_left, one_gfMul]
  · rw [sbox_eq_table]
  · rw [invSbox_eq_table]

end Sys2Proof.Machine

/-! Proofs of the round transform statements: the S-box directions as inverses, the column mix as multiplication by a fixed column in the
ring of columns, and the maps of columns and bytes that carry both over to blocks. -/
namespace Sys2Proof.Machine

/-! ### The S-box -/

theorem invAffine_affine : ∀ b : Byte, invAffine (affine b) = b := by decide +kernel

theorem affine_invAffine : ∀ b : Byte, affine (invAffine b) = b := by decide +kernel

/-- The field inverse and the affine transform are undone in reverse order (R152). -/
theorem invSbox_sbox (b : Byte) : invSbox (sbox b) = b := by
  rw [invSbox, sbox, invAffine_affine, gfInv_gfInv]

theorem sbox_invSbox (b : Byte) : sbox (invSbox b) = b := by
  rw [sbox, invSbox, gfInv_gfInv, affine_invAffine]

/-- The S-box has no fixed point (R143), by the entries of its table. -/
theorem sbox_ne_self (b : Byte) : sbox b ≠ b := by
  rw [sbox_eq_table]
  exact (by decide +kernel : ∀ x : Byte, tableAt sboxRows x ≠ x) b

theorem sbox_zero : sbox 0#8 = 0x63#8 := by
  rw [sbox, gfInv_zero]
  rfl

/-! ### Maps of columns and of bytes -/

theorem quadByte_quadMap (f : Byte → Byte) (q : Quad) (i : Fin 4) : quadByte (quadMap f q) i = f (quadByte q i) := by
  fin_cases i <;> rfl

theorem blockQuad_columnMap (f : Quad → Quad) (x : Block) (c : Fin 4) : blockQuad (columnMap f x) c = f (blockQuad x c) := by
  fin_cases c <;> rfl

theorem blockByte_columnMap_quadMap (f : Byte → Byte) (x : Block) (i : Fin 16) :
    blockByte (columnMap (quadMap f) x) i = f (blockByte x i) := by
  rw [blockByte, blockQuad_columnMap, quadByte_quadMap, blockByte]

theorem quadMap_leftInverse {f g : Byte → Byte} (h : Function.LeftInverse g f) : Function.LeftInverse (quadMap g) (quadMap f) :=
  fun q => by simp only [quadMap, h _]

theorem columnMap_leftInverse {f g : Quad → Quad} (h : Function.LeftInverse g f) :
    Function.LeftInverse (columnMap g) (columnMap f) :=
  fun x => by simp only [columnMap, h _]

/-! ### Substitution -/

theorem blockByte_subBytes (x : Block) (i : Fin 16) : blockByte (subBytes x) i = sbox (blockByte x i) :=
  blockByte_columnMap_quadMap sbox x i

theorem blockByte_invSubBytes (x : Block) (i : Fin 16) : blockByte (invSubBytes x) i = invSbox (blockByte x i) :=
  blockByte_columnMap_quadMap invSbox x i

@[simp] theorem invSubBytes_subBytes (x : Block) : invSubBytes (subBytes x) = x :=
  columnMap_leftInverse (quadMap_leftInverse invSbox_sbox) x

@[simp] theorem subBytes_invSubBytes (x : Block) : subBytes (invSubBytes x) = x :=
  columnMap_leftInverse (quadMap_leftInverse sbox_invSbox) x

/-! ### The row shift -/

theorem blockByte_shiftRows (x : Block) (r c : Fin 4) : blockByte (shiftRows x) ⟨r.val + 4 * c.val, by omega⟩ =
    blockByte x ⟨r.val + 4 * ((c.val + r.val) % 4), by omega⟩ := by
  fin_cases r <;> fin_cases c <;> rfl

theorem blockByte_invShiftRows (x : Block) (r c : Fin 4) : blockByte (invShiftRows x) ⟨r.val + 4 * c.val, by omega⟩ =
    blockByte x ⟨r.val + 4 * ((c.val + 4 - r.val) % 4), by omega⟩ := by
  fin_cases r <;> fin_cases c <;> rfl

@[simp] theorem invShiftRows_shiftRows (x : Block) : invShiftRows (shiftRows x) = x := rfl

@[simp] theorem shiftRows_invShiftRows (x : Block) : shiftRows (invShiftRows x) = x := rfl

theorem shiftRows_four_times (x : Block) : shiftRows (shiftRows (shiftRows (shiftRows x))) = x := rfl

/-- A map of values commutes with a move of positions (R152). -/
theorem columnMap_quadMap_shiftRows (f : Byte → Byte) (x : Block) :
    columnMap (quadMap f) (shiftRows x) = shiftRows (columnMap (quadMap f) x) := rfl

theorem columnMap_quadMap_invShiftRows (f : Byte → Byte) (x : Block) :
    columnMap (quadMap f) (invShiftRows x) = invShiftRows (columnMap (quadMap f) x) := rfl

/-! ### The column mix -/

/-- The product of two columns as polynomials in `y` over the field, modulo `y^4 + 1`: byte `i` is the coefficient of `y^i`. -/
def columnMul (c x : Quad) : Quad :=
  ⟨gfMul c.b0 x.b0 ^^^ gfMul c.b3 x.b1 ^^^ gfMul c.b2 x.b2 ^^^ gfMul c.b1 x.b3,
   gfMul c.b1 x.b0 ^^^ gfMul c.b0 x.b1 ^^^ gfMul c.b3 x.b2 ^^^ gfMul c.b2 x.b3,
   gfMul c.b2 x.b0 ^^^ gfMul c.b1 x.b1 ^^^ gfMul c.b0 x.b2 ^^^ gfMul c.b3 x.b3,
   gfMul c.b3 x.b0 ^^^ gfMul c.b2 x.b1 ^^^ gfMul c.b1 x.b2 ^^^ gfMul c.b0 x.b3⟩

/-- The column that `mixColumn` multiplies by: the first column of its circulant matrix (R149). -/
def mixFactor : Quad := ⟨0x02#8, 0x01#8, 0x01#8, 0x03#8⟩

/-- The column that `invMixColumn` multiplies by (R150). -/
def invMixFactor : Quad := ⟨0x0E#8, 0x09#8, 0x0D#8, 0x0B#8⟩

theorem mixColumn_eq_columnMul (q : Quad) : mixColumn q = columnMul mixFactor q := by
  simp only [mixColumn, columnMul, mixFactor, one_gfMul]

theorem invMixColumn_eq_columnMul (q : Quad) : invMixColumn q = columnMul invMixFactor q := rfl

theorem columnMul_assoc (a b c : Quad) : columnMul a (columnMul b c) = columnMul (columnMul a b) c := by
  simp only [columnMul, Quad.mk.injEq]
  refine ⟨?_, ?_, ?_, ?_⟩ <;>
    · apply fieldElement_injective
      simp only [fieldElement_xor, fieldElement_gfMul]
      ring

theorem one_columnMul (x : Quad) : columnMul ⟨1#8, 0#8, 0#8, 0#8⟩ x = x := by simp [columnMul]

theorem columnMul_leftInverse {a b : Quad} (h : columnMul a b = ⟨1#8, 0#8, 0#8, 0#8⟩) :
    Function.LeftInverse (columnMul a) (columnMul b) :=
  fun x => by rw [columnMul_assoc, h, one_columnMul]

/-- Each byte of the product is the sum of the factor's bytes times the repeated byte. -/
theorem columnMul_equalBytes {c : Quad} (h : c.b0 ^^^ c.b1 ^^^ c.b2 ^^^ c.b3 = 1#8) (b : Byte) :
    columnMul c ⟨b, b, b, b⟩ = ⟨b, b, b, b⟩ := by
  have hsum := congrArg fieldElement h
  simp only [fieldElement_xor, fieldElement_one] at hsum
  simp only [columnMul, Quad.mk.injEq]
  refine ⟨?_, ?_, ?_, ?_⟩ <;>
    · apply fieldElement_injective
      simp only [fieldElement_xor, fieldElement_gfMul]
      linear_combination fieldElement b * hsum

theorem invMixColumn_mixColumn : Function.LeftInverse invMixColumn mixColumn := by
  rw [funext mixColumn_eq_columnMul, funext invMixColumn_eq_columnMul]
  exact columnMul_leftInverse (by decide)

theorem mixColumn_invMixColumn : Function.LeftInverse mixColumn invMixColumn := by
  rw [funext mixColumn_eq_columnMul, funext invMixColumn_eq_columnMul]
  exact columnMul_leftInverse (by decide)

theorem mixColumn_equalBytes (b : Byte) : mixColumn ⟨b, b, b, b⟩ = ⟨b, b, b, b⟩ :=
  (mixColumn_eq_columnMul _).trans (columnMul_equalBytes rfl b)

theorem invMixColumn_equalBytes (b : Byte) : invMixColumn ⟨b, b, b, b⟩ = ⟨b, b, b, b⟩ :=
  (invMixColumn_eq_columnMul _).trans (columnMul_equalBytes rfl b)

@[simp] theorem invMixColumns_mixColumns (x : Block) : invMixColumns (mixColumns x) = x :=
  columnMap_leftInverse invMixColumn_mixColumn x

@[simp] theorem mixColumns_invMixColumns (x : Block) : mixColumns (invMixColumns x) = x :=
  columnMap_leftInverse mixColumn_invMixColumn x

/-! ### Whiten -/

theorem blockByte_addRoundKey (x rk : Block) (i : Fin 16) : blockByte (addRoundKey x rk) i = blockByte x i ^^^ blockByte rk i :=
  blockByte_xor x rk i

@[simp] theorem addRoundKey_addRoundKey (x rk : Block) : addRoundKey (addRoundKey x rk) rk = x :=
  block_ext fun i => by rw [blockByte_addRoundKey, blockByte_addRoundKey, BitVec.xor_assoc, BitVec.xor_self, BitVec.xor_zero]

theorem addRoundKey_zero (x : Block) : addRoundKey x (blockOfHex 0) = x := by
  simp [addRoundKey, Block.xor, Quad.xor, blockOfHex, quadOfHex]

/-! ### The statements -/

/-- Settles O38: the transforms are inverse column by column, or byte by byte, and substitution is a map of values. -/
theorem roundTransformsAreInversePairs : Obligations.RoundTransformsAreInversePairs := fun x =>
  ⟨⟨invSubBytes_subBytes x, subBytes_invSubBytes x⟩, ⟨invShiftRows_shiftRows x, shiftRows_invShiftRows x⟩,
    ⟨invMixColumns_mixColumns x, mixColumns_invMixColumns x⟩,
    columnMap_quadMap_shiftRows sbox x, columnMap_quadMap_invShiftRows invSbox x⟩

/-- A command that ends with a new `S` writes `S` and `STATUS` alone. -/
theorem frameS_finishS (x : Block) (m : State) : FrameS m (finishS x m) :=
  ⟨⟨rfl, rfl, rfl, rfl, rfl, rfl, rfl⟩, ⟨rfl, rfl, rfl⟩, ⟨rfl, rfl⟩, fun _ => rfl, rfl, rfl⟩

/-- Settles O34: the substitution acts on each byte alone, and the S-box directions undo each other. -/
theorem substituteCommands : Obligations.SubstituteCommands := by
  refine ⟨⟨rfl, rfl⟩, fun m => ⟨?subb, ?isubb⟩, ?zero, ?forward, ?inverse⟩
  case subb =>
    exact ⟨finishS (subBytes m.s) m, rfl, blockByte_subBytes m.s, rfl, frameS_finishS _ m, _, rfl, invSubBytes_subBytes m.s⟩
  case isubb =>
    exact ⟨finishS (invSubBytes m.s) m, rfl, blockByte_invSubBytes m.s, rfl, frameS_finishS _ m, _, rfl, subBytes_invSubBytes m.s⟩
  case zero | forward =>
    rw [subBytes, sbox_eq_table]
    decide +kernel
  case inverse =>
    rw [invSubBytes, invSbox_eq_table]
    decide +kernel

/-- Settles O35, by the sixteen positions. -/
theorem rowShiftCommands : Obligations.RowShiftCommands := by
  refine ⟨⟨rfl, rfl⟩, fun m => ⟨?shrow, ?ishrow⟩, shiftRows_four_times, fun _ => rfl, by decide +kernel, by decide +kernel⟩
  case shrow =>
    exact ⟨finishS (shiftRows m.s) m, rfl, blockByte_shiftRows m.s, rfl, frameS_finishS _ m, _, rfl, invShiftRows_shiftRows m.s⟩
  case ishrow =>
    exact ⟨finishS (invShiftRows m.s) m, rfl, blockByte_invShiftRows m.s, rfl, frameS_finishS _ m⟩

/-- Settles O36: the factors of the two column mixes have the product 1, and the bytes of each have the sum 1. -/
theorem columnMixCommands : Obligations.ColumnMixCommands := by
  refine ⟨⟨rfl, rfl⟩, fun m => ⟨?mixc, ?imixc⟩, fun b => ⟨mixColumn_equalBytes b, invMixColumn_equalBytes b⟩,
    by decide +kernel, by decide +kernel, by decide +kernel⟩
  case mixc =>
    exact ⟨finishS (mixColumns m.s) m, rfl, blockQuad_columnMap mixColumn m.s, rfl, frameS_finishS _ m,
      _, rfl, invMixColumns_mixColumns m.s⟩
  case imixc =>
    exact ⟨finishS (invMixColumns m.s) m, rfl, blockQuad_columnMap invMixColumn m.s, rfl, frameS_finishS _ m⟩

/-- Settles O33: the words are encodings, and the inverse S-box undoes the examples of the S-box. -/
theorem sboxCommandsWriteFr : Obligations.SboxCommandsWriteFr := by
  have hsbox : sbox 0x53#8 = 0xED#8 := by decide +kernel
  refine ⟨fun a => ⟨?sboxb, ?isboxb⟩, fun _ _ => ⟨rfl, rfl⟩, ⟨sbox_zero, sbox_ne_self⟩, ⟨?undoZero, by decide +kernel⟩,
    ⟨rfl, hsbox⟩, rfl, ?undo⟩
  case sboxb => exact encode_of_operandB_eq_zero (i := .sboxb a) rfl ▸ decode_encode rfl
  case isboxb => exact encode_of_operandB_eq_zero (i := .isboxb a) rfl ▸ decode_encode rfl
  case undoZero => rw [← sbox_zero, invSbox_sbox]
  case undo => rw [← hsbox, invSbox_sbox]

/-- Settles O37: exclusive-or is byte by byte, undoes itself, and has zero as its identity. -/
theorem addRoundKeyCommand : Obligations.AddRoundKeyCommand := by
  refine ⟨rfl, fun m => ?addrk, by decide +kernel⟩
  have hzero : m.rk = blockOfHex 0 → addRoundKey m.s m.rk = m.s := fun h => by rw [h, addRoundKey_zero]
  exact ⟨finishS (addRoundKey m.s m.rk) m, rfl, blockByte_addRoundKey m.s m.rk, rfl, frameS_finishS _ m, hzero,
    _, rfl, addRoundKey_addRoundKey m.s m.rk⟩

end Sys2Proof.Machine

/-! Proofs of the key schedule statements: with one round constant each step undoes the other, so the round keys that the two steps relate
are the same pairs, and the commands are the steps on the register pair `RK`, `RND`. -/
namespace Sys2Proof.Machine

/-! ### The round constants -/

/-- The constants are the powers of two in the field (R171), entry by entry. -/
theorem rcon_eq_gfPow {r : Nat} (h : 1 ≤ r) (h10 : r ≤ 10) : rcon r = some (gfPow 2#8 (r - 1)) := by
  interval_cases r <;> decide +kernel

/-- Outside 1..10 there is no constant, for with one the backward step would have a result. -/
theorem rcon_eq_none {r : Nat} (h : r = 0 ∨ 10 < r) : rcon r = none :=
  Option.map_eq_none_iff.1 (previousRoundKey_of_not_mem zeroBlock h)

/-! ### The two steps with one constant -/

/-- The backward step recovers the words from the last to the first, so it applies the word function to the word that the forward step
applied it to. -/
theorem keyBackward_keyForward (c : Byte) (v : Block) : keyBackward c (keyForward c v) = v := by
  simp only [keyBackward, keyForward, quad_xor_cancel_right]

theorem keyForward_keyBackward (c : Byte) (w : Block) : keyForward c (keyBackward c w) = w := by
  simp only [keyBackward, keyForward, quad_xor_cancel_right]

theorem keyForward_eq_iff {c : Byte} {v w : Block} : keyForward c v = w ↔ keyBackward c w = v :=
  ⟨fun h => h ▸ keyBackward_keyForward c v, fun h => h ▸ keyForward_keyBackward c w⟩

/-! ### The two steps by round number -/

section
variable {v w : Block} {r : Nat}

/-- Round key `r + 1` follows from round key `r` exactly where round key `r` follows back from it (R175). -/
theorem nextRoundKey_eq_some_iff : nextRoundKey v r = some w ↔ previousRoundKey w (r + 1) = some v := by
  simp only [nextRoundKey, previousRoundKey, Option.map_eq_some_iff, keyForward_eq_iff]

theorem eq_keyForward_of_nextRoundKey {c : Byte} (hc : rcon (r + 1) = some c) (h : nextRoundKey v r = some w) :
    w = keyForward c v := by
  rw [nextRoundKey, hc] at h
  exact (Option.some.inj h).symm

theorem eq_keyBackward_of_previousRoundKey {c : Byte} (hc : rcon r = some c) (h : previousRoundKey w r = some v) :
    v = keyBackward c w := by
  rw [previousRoundKey, hc] at h
  exact (Option.some.inj h).symm

theorem isSome_nextRoundKey_iff : (nextRoundKey v r).isSome = true ↔ r ≤ 9 := by
  obtain hr | hr := Nat.lt_or_ge 9 r
  · simp [nextRoundKey_of_ge v hr, hr]
  · obtain ⟨c, -, h⟩ := nextRoundKey_of_le v hr
    simp [h, hr]

theorem isSome_previousRoundKey_iff : (previousRoundKey w r).isSome = true ↔ 1 ≤ r ∧ r ≤ 10 := by
  by_cases hr : 1 ≤ r ∧ r ≤ 10
  · obtain ⟨c, -, h⟩ := previousRoundKey_of_mem w hr.1 hr.2
    simp [h, hr]
  · simp [previousRoundKey_of_not_mem w (r := r) (by omega), hr]

theorem le_of_nextRoundKey (h : nextRoundKey v r = some w) : r ≤ 9 :=
  isSome_nextRoundKey_iff.1 (Option.isSome_of_eq_some h)

theorem mem_of_previousRoundKey (h : previousRoundKey w r = some v) : 1 ≤ r ∧ r ≤ 10 :=
  isSome_previousRoundKey_iff.1 (Option.isSome_of_eq_some h)

end

/-- The first round key of the key of FIPS-197 appendix A.1. -/
theorem nextRoundKey_appendixKey :
    nextRoundKey (blockOfHex 0x2b7e151628aed2a6abf7158809cf4f3c) 0 = some (blockOfHex 0xa0fafe1788542cb123a339392a6c7605) := by
  simp only [nextRoundKey, keyForward_eq_table]
  decide +kernel

/-- The last two round keys of the same key, from round 10 back to round 9. -/
theorem previousRoundKey_appendixKey :
    previousRoundKey (blockOfHex 0xd014f9a8c9ee2589e13f0cc8b6630ca6) 10 =
      some (blockOfHex 0xac7766f319fadc2128d12941575c006e) := by
  simp only [previousRoundKey, keyBackward_eq_table]
  decide +kernel

/-! ### The commands -/

section
variable {m t : State} {rk : Block}

theorem exec_ksnext_of_some (h : nextRoundKey m.rk m.rnd.toNat = some rk) :
    exec .ksnext m = .next (finishRound rk (m.rnd + 1#4) m) := by
  simp only [exec, execKsnext, h]

theorem exec_ksnext_of_none (h : nextRoundKey m.rk m.rnd.toNat = none) :
    exec .ksnext m = .next { m with status := .errRnd } := by
  simp only [exec, execKsnext, h]
  rfl

theorem exec_ksprev_of_some (h : previousRoundKey m.rk m.rnd.toNat = some rk) :
    exec .ksprev m = .next (finishRound rk (m.rnd - 1#4) m) := by
  simp only [exec, execKsprev, h]

theorem exec_ksprev_of_none (h : previousRoundKey m.rk m.rnd.toNat = none) :
    exec .ksprev m = .next { m with status := .errRnd } := by
  simp only [exec, execKsprev, h]
  rfl

/-- Where `KSNEXT` succeeds it has made one forward step. -/
theorem exec_ksnext_ok (h : exec .ksnext m = .next t) (hok : t.status = .ok) :
    ∃ rk, nextRoundKey m.rk m.rnd.toNat = some rk ∧ t = finishRound rk (m.rnd + 1#4) m := by
  cases hrk : nextRoundKey m.rk m.rnd.toNat with
  | none =>
    rw [exec_ksnext_of_none hrk] at h
    cases h
    cases hok
  | some rk =>
    rw [exec_ksnext_of_some hrk] at h
    cases h
    exact ⟨rk, rfl, rfl⟩

/-- Where `KSPREV` succeeds it has made one backward step. -/
theorem exec_ksprev_ok (h : exec .ksprev m = .next t) (hok : t.status = .ok) :
    ∃ rk, previousRoundKey m.rk m.rnd.toNat = some rk ∧ t = finishRound rk (m.rnd - 1#4) m := by
  cases hrk : previousRoundKey m.rk m.rnd.toNat with
  | none =>
    rw [exec_ksprev_of_none hrk] at h
    cases h
    cases hok
  | some rk =>
    rw [exec_ksprev_of_some hrk] at h
    cases h
    exact ⟨rk, rfl, rfl⟩

end

/-- The round number that `KSNEXT` leaves does not wrap. -/
theorem toNat_rnd_add_one {r : BitVec 4} (h : r.toNat ≤ 9) : (r + 1#4).toNat = r.toNat + 1 := by
  bv_omega

/-- The round number that `KSPREV` leaves does not wrap. -/
theorem toNat_rnd_sub_one {r : BitVec 4} (h : 1 ≤ r.toNat) : (r - 1#4).toNat + 1 = r.toNat := by
  bv_omega

/-- A command that ends with a new round key writes `RK`, `RND` and `STATUS` alone. -/
theorem frameSchedule_finishRound (x : Block) (r : BitVec 4) (m : State) : FrameSchedule m (finishRound x r m) :=
  ⟨⟨rfl, rfl, rfl, rfl, rfl, rfl, rfl⟩, ⟨rfl, rfl, rfl⟩, fun _ => rfl, rfl, rfl, rfl⟩

/-- The backward step from the registers after `KSNEXT` leads to the registers before it. -/
theorem ksprev_after_ksnext {m t u : State} (ht : exec .ksnext m = .next t) (hok : t.status = .ok)
    (hu : exec .ksprev t = .next u) : u.rk = m.rk ∧ u.rnd = m.rnd := by
  obtain ⟨rk, hnext, rfl⟩ := exec_ksnext_ok ht hok
  have hrnd : (m.rnd + 1#4).toNat = m.rnd.toNat + 1 := toNat_rnd_add_one (le_of_nextRoundKey hnext)
  have hprev : previousRoundKey rk (m.rnd + 1#4).toNat = some m.rk := by
    rw [hrnd]
    exact nextRoundKey_eq_some_iff.1 hnext
  rw [exec_ksprev_of_some hprev] at hu
  cases hu
  exact ⟨rfl, BitVec.add_sub_cancel m.rnd 1#4⟩

/-- The forward step from the registers after `KSPREV` leads to the registers before it. -/
theorem ksnext_after_ksprev {m t u : State} (ht : exec .ksprev m = .next t) (hok : t.status = .ok)
    (hu : exec .ksnext t = .next u) : u.rk = m.rk ∧ u.rnd = m.rnd := by
  obtain ⟨rk, hprev, rfl⟩ := exec_ksprev_ok ht hok
  have hrnd : (m.rnd - 1#4).toNat + 1 = m.rnd.toNat := toNat_rnd_sub_one (mem_of_previousRoundKey hprev).1
  have hnext : nextRoundKey rk (m.rnd - 1#4).toNat = some m.rk := by
    rw [nextRoundKey_eq_some_iff, hrnd]
    exact hprev
  rw [exec_ksnext_of_some hnext] at hu
  cases hu
  exact ⟨rfl, BitVec.sub_add_cancel m.rnd 1#4⟩

/-! ### The statements -/

/-- Settles O39: the steps are the word equations of their definitions, and exist where the round constant does. -/
theorem keyStepsChainTheWords : Obligations.KeyStepsChainTheWords := by
  refine ⟨fun r => ⟨fun ⟨h, h10⟩ => rcon_eq_gfPow h h10, rcon_eq_none⟩, rfl, fun _ _ => rfl,
    fun _ _ => isSome_nextRoundKey_iff, fun _ _ => isSome_previousRoundKey_iff, ?forward, ?backward,
    nextRoundKey_appendixKey, previousRoundKey_appendixKey⟩
  case forward =>
    intro v w r c hc h
    obtain rfl := eq_keyForward_of_nextRoundKey hc h
    exact ⟨rfl, rfl, rfl, rfl⟩
  case backward =>
    intro v w r c hc h
    obtain rfl := eq_keyBackward_of_previousRoundKey hc h
    exact ⟨rfl, rfl, rfl, rfl⟩

/-- Settles O40: in its range each step has a result, and the other step leads back from it. -/
theorem keyStepsAreInverse : Obligations.KeyStepsAreInverse := by
  refine ⟨fun x r hr => ?forward, fun x r hr hr10 => ?backward⟩
  case forward =>
    obtain ⟨c, -, h⟩ := nextRoundKey_of_le x hr
    rw [h]
    exact nextRoundKey_eq_some_iff.1 h
  case backward =>
    obtain ⟨c, -, h⟩ := previousRoundKey_of_mem x hr hr10
    rw [h]
    refine nextRoundKey_eq_some_iff.2 ?_
    rwa [Nat.sub_add_cancel hr]

/-- Settles O41: the word is an encoding, and `KSLOAD` ends with `K` as the round key of round 0. -/
theorem ksloadStartsAtTheKey : Obligations.KsloadStartsAtTheKey :=
  ⟨decode_encode (i := .ksload) rfl, fun _ => rfl⟩

/-- Settles O42: below round 10 the forward step has a result and the round number does not wrap. -/
theorem ksnextStepsForward : Obligations.KsnextStepsForward := by
  refine ⟨decode_encode (i := .ksnext) rfl, fun m hm => ?next, fun m hm => ?fail, nextRoundKey_appendixKey⟩
  case next =>
    obtain ⟨c, -, h⟩ := nextRoundKey_of_le m.rk (Nat.le_of_lt_succ hm)
    exact ⟨_, exec_ksnext_of_some h, h, toNat_rnd_add_one (Nat.le_of_lt_succ hm), rfl, frameSchedule_finishRound _ _ m⟩
  case fail => exact exec_ksnext_of_none (nextRoundKey_of_ge m.rk hm)

/-- Settles O43: in rounds 1..10 the backward step has a result, and where the first of the two commands succeeds the second undoes it. -/
theorem ksprevStepsBackward : Obligations.KsprevStepsBackward := by
  refine ⟨decode_encode (i := .ksprev) rfl, fun m hm hm10 => ?next, fun m hm => ?fail,
    fun _ _ _ => ksprev_after_ksnext, fun _ _ _ => ksnext_after_ksprev, previousRoundKey_appendixKey⟩
  case next =>
    obtain ⟨c, -, h⟩ := previousRoundKey_of_mem m.rk hm hm10
    exact ⟨_, exec_ksprev_of_some h, h, toNat_rnd_sub_one hm, rfl, frameSchedule_finishRound _ _ m⟩
  case fail => exact exec_ksprev_of_none (previousRoundKey_of_not_mem m.rk hm)

end Sys2Proof.Machine

/-! Proofs of the block cipher statements: a round of either direction steps the schedule and then works with the round key it reached, so the
folds over the round constants are folds over the round keys, which undo each other round by round. -/
namespace Sys2Proof.Machine

/-! ### Folds -/

/-- A sequence that each element of the list advances by one is at the list's length after the fold. -/
theorem foldl_eq_of_step {α β : Type} {f : α → β → α} (l : List β) (g : Nat → α)
    (step : ∀ i (hi : i < l.length), f (g i) l[i] = g (i + 1)) : l.foldl f (g 0) = g l.length := by
  induction l generalizing g with
  | nil => rfl
  | cons b l ih =>
    rw [List.foldl_cons, show f (g 0) b = g 1 from step 0 (by simp)]
    exact ih (fun i => g (i + 1)) fun i hi => step (i + 1) (by simpa using hi)

/-- Steps that are undone one by one, the last one first, leave where they began. -/
theorem foldl_reverse_foldl {α β : Type} {f g : α → β → α} (h : ∀ a b, g (f a b) b = a) (l : List β) (a : α) :
    l.reverse.foldl g (l.foldl f a) = a := by
  induction l generalizing a with
  | nil => rfl
  | cons b l ih => simp only [List.reverse_cons, List.foldl_append, List.foldl_cons, List.foldl_nil, ih, h]

/-! ### Rounds over round keys -/

/-- A full round of encryption with its round key: substitute, shift, mix, whiten (R186). -/
def fullRound (s rk : Block) : Block := addRoundKey (mixColumns (shiftRows (subBytes s))) rk

/-- A full round undone with its round key: whiten, mix, shift and substitute backward (R187). -/
def undoFullRound (s rk : Block) : Block := invSubBytes (invShiftRows (invMixColumns (addRoundKey s rk)))

theorem undoFullRound_fullRound (s rk : Block) : undoFullRound (fullRound s rk) rk = s := by
  simp [undoFullRound, fullRound]

theorem fullRound_undoFullRound (s rk : Block) : fullRound (undoFullRound s rk) rk = s := by
  simp [undoFullRound, fullRound]

/-- A step of the schedule and a round with the key it reaches, the common form of `encRound` and `decRound`. -/
def keyedRound (key : Byte → Block → Block) (round : Block → Block → Block) (x : CipherState) (c : Byte) : CipherState :=
  ⟨round x.s (key c x.ks), key c x.ks⟩

theorem encRound_eq_keyedRound : encRound = keyedRound keyForward fullRound := rfl

theorem decRound_eq_keyedRound : decRound = keyedRound keyBackward undoFullRound := rfl

/-- The state after `n` rounds with the keys `ks 1` to `ks n`. -/
def roundsDone (round : Block → Block → Block) (ks : Nat → Block) (s : Block) (n : Nat) : CipherState :=
  ⟨(List.range n).foldl (fun s i => round s (ks (i + 1))) s, ks n⟩

/-- Where the constants lead through the keys `ks 0`, `ks 1` and so on, the rounds work with these keys. -/
theorem foldl_keyedRound {key : Byte → Block → Block} {round : Block → Block → Block} {cs : List Byte} {ks : Nat → Block}
    (hks : ∀ i (hi : i < cs.length), key cs[i] (ks i) = ks (i + 1)) (s : Block) :
    cs.foldl (keyedRound key round) ⟨s, ks 0⟩ = roundsDone round ks s cs.length :=
  foldl_eq_of_step cs (roundsDone round ks s) fun i hi => by
    simp [roundsDone, keyedRound, hks i hi, List.range_succ]

/-! ### The round keys -/

/-- There are round keys 0..10 and no others (R176), as the forward step has a result in rounds 0..9 alone. -/
theorem isSome_roundKey_iff {k : Block} {r : Nat} : (roundKey k r).isSome = true ↔ r ≤ 10 := by
  induction r with
  | zero => simp [roundKey]
  | succ r ih =>
    cases h : roundKey k r with
    | none =>
      have hr : 10 < r := by simpa [h] using ih
      simp only [roundKey, h, Option.bind_none, Option.isSome_none, Bool.false_eq_true, false_iff]
      omega
    | some v => rw [roundKey, h, Option.bind_some, isSome_nextRoundKey_iff, Nat.add_le_add_iff_right (n := 1)]

theorem exists_roundKeys (k : Block) : ∃ rks : Nat → Block, ∀ r, r ≤ 10 → roundKey k r = some (rks r) := by
  refine ⟨fun r => (roundKey k r).getD k, fun r hr => ?_⟩
  obtain ⟨v, hv⟩ := Option.isSome_iff_exists.1 (isSome_roundKey_iff (k := k).2 hr)
  simp only [hv, Option.getD_some]

section
variable {k : Block} {rks : Nat → Block} (hrks : ∀ r, r ≤ 10 → roundKey k r = some (rks r))
include hrks

theorem roundKeys_zero : rks 0 = k := (Option.some.inj (hrks 0 (Nat.zero_le 10))).symm

theorem keyForward_roundKeys {r : Nat} {c : Byte} (hr : r ≤ 9) (hc : rcon (r + 1) = some c) :
    keyForward c (rks r) = rks (r + 1) := by
  have hnext : nextRoundKey (rks r) r = some (rks (r + 1)) := by
    rw [← hrks (r + 1) (Nat.succ_le_succ hr), roundKey, hrks r (Nat.le_succ_of_le hr), Option.bind_some]
  exact (eq_keyForward_of_nextRoundKey hc hnext).symm

theorem keyBackward_roundKeys {r : Nat} {c : Byte} (hr : r ≤ 9) (hc : rcon (r + 1) = some c) :
    keyBackward c (rks (r + 1)) = rks r :=
  keyForward_eq_iff.1 (keyForward_roundKeys hrks hr hc)

theorem lastRoundKey_eq : lastRoundKey k = rks 10 := by
  rw [← roundKeys_zero hrks]
  exact foldl_eq_of_step rconTable rks fun i hi =>
    keyForward_roundKeys hrks (Nat.le_of_lt_succ hi) (List.getElem?_eq_getElem hi)

/-- The nine full rounds of encryption end at round key 9. -/
theorem foldl_encRound (s : Block) : fullRoundConstants.foldl encRound ⟨s, k⟩ =
    ⟨(List.range 9).foldl (fun s i => fullRound s (rks (i + 1))) s, rks 9⟩ := by
  have constants : ∀ i (hi : i < 9), rcon (i + 1) = some fullRoundConstants[i] := by decide
  rw [encRound_eq_keyedRound, ← roundKeys_zero hrks]
  exact foldl_keyedRound (cs := fullRoundConstants) (ks := rks)
    (fun i hi => keyForward_roundKeys hrks (Nat.le_of_lt hi) (constants i hi)) s

/-- The nine backward steps that undo full rounds lead from round key 10 to round key 1. -/
theorem foldl_decRound (s : Block) : undoRoundConstants.foldl decRound ⟨s, rks 10⟩ =
    ⟨(List.range 9).reverse.foldl (fun s i => undoFullRound s (rks (i + 1))) s, rks 1⟩ := by
  have constants : ∀ i (hi : i < 9), rcon (9 - i + 1) = some undoRoundConstants[i] := by decide
  rw [decRound_eq_keyedRound]
  refine foldl_keyedRound (ks := fun i => rks (10 - i)) (fun i hi => ?step) s
  case step =>
    have hi9 : i < 9 := hi
    rw [show 10 - i = 9 - i + 1 by omega, show 10 - (i + 1) = 9 - i by omega]
    exact keyBackward_roundKeys hrks (Nat.sub_le 9 i) (constants i hi)

theorem encryptBlock_eq_rounds (p : Block) : encryptBlock p k =
    addRoundKey (shiftRows (subBytes
      ((List.range 9).foldl (fun s i => fullRound s (rks (i + 1))) (addRoundKey p (rks 0))))) (rks 10) := by
  rw [encryptBlock, foldl_encRound hrks, roundKeys_zero hrks,
    ← show keyForward finalRoundConstant (rks 9) = rks 10 from keyForward_roundKeys hrks (by decide) rfl]
  rfl

theorem foldl_decRound_decFirst (c : Block) : undoRoundConstants.foldl decRound (decFirst c (lastRoundKey k)) =
    ⟨(List.range 9).reverse.foldl (fun s i => undoFullRound s (rks (i + 1)))
      (invSubBytes (invShiftRows (addRoundKey c (rks 10)))), rks 1⟩ := by
  rw [lastRoundKey_eq hrks, decFirst, foldl_decRound hrks]

/-- The last backward step leads from round key 1 to the key. -/
theorem keyBackward_undoLastConstant : keyBackward undoLastConstant (rks 1) = rks 0 :=
  keyBackward_roundKeys hrks (r := 0) (by decide) rfl

theorem decryptBlock_eq_rounds (c : Block) : decryptBlock c k =
    addRoundKey ((List.range 9).reverse.foldl (fun s i => undoFullRound s (rks (i + 1)))
      (invSubBytes (invShiftRows (addRoundKey c (rks 10))))) (rks 0) := by
  rw [decryptBlock, foldl_decRound_decFirst hrks, keyBackward_undoLastConstant hrks]

end

/-! ### The round trips -/

/-- Each step of decryption undoes the matching step of encryption (R188). -/
theorem decryptBlock_encryptBlock (p k : Block) : decryptBlock (encryptBlock p k) k = p := by
  obtain ⟨rks, hrks⟩ := exists_roundKeys k
  rw [decryptBlock_eq_rounds hrks, encryptBlock_eq_rounds hrks, addRoundKey_addRoundKey, invShiftRows_shiftRows,
    invSubBytes_subBytes, foldl_reverse_foldl (fun s i => undoFullRound_fullRound s (rks (i + 1))), addRoundKey_addRoundKey]

theorem encryptBlock_decryptBlock (c k : Block) : encryptBlock (decryptBlock c k) k = c := by
  obtain ⟨rks, hrks⟩ := exists_roundKeys k
  have rounds := foldl_reverse_foldl (f := fun s i => undoFullRound s (rks (i + 1)))
    (g := fun s i => fullRound s (rks (i + 1))) (fun s i => fullRound_undoFullRound s (rks (i + 1))) (List.range 9).reverse
  rw [List.reverse_reverse] at rounds
  rw [encryptBlock_eq_rounds hrks, decryptBlock_eq_rounds hrks, addRoundKey_addRoundKey, rounds, subBytes_invSubBytes,
    shiftRows_invShiftRows, addRoundKey_addRoundKey]

/-! ### Known answers -/

/-- The example of FIPS-197 appendix B. -/
theorem encryptBlock_appendixB :
    encryptBlock (blockOfHex 0x3243f6a8885a308d313198a2e0370734) (blockOfHex 0x2b7e151628aed2a6abf7158809cf4f3c) =
      blockOfHex 0x3925841d02dc09fbdc118597196a0b32 := by
  rw [encryptBlock_eq_table]
  decide +kernel

/-- The example of FIPS-197 appendix C.1. -/
theorem encryptBlock_appendixC :
    encryptBlock (blockOfHex 0x00112233445566778899aabbccddeeff) (blockOfHex 0x000102030405060708090a0b0c0d0e0f) =
      blockOfHex 0x69c4e0d86a7b0430d8cdb78070b4c55a := by
  rw [encryptBlock_eq_table]
  decide +kernel

/-! ### The statements -/

/-- Settles O44: the schedule that encryption steps passes through the round keys. -/
theorem encryptionWhitensWithTheRoundKeys : Obligations.EncryptionWhitensWithTheRoundKeys :=
  ⟨fun p _ _ hrks => encryptBlock_eq_rounds hrks p, fun _ _ => isSome_roundKey_iff, encryptBlock_appendixB⟩

/-- Settles O45: the schedule that decryption steps backward passes through the round keys, and decryption undoes the example of
encryption. -/
theorem decryptionUndoesTheRoundsInReverse : Obligations.DecryptionUndoesTheRoundsInReverse := by
  refine ⟨fun c k rks hrks => ⟨lastRoundKey_eq hrks, decryptBlock_eq_rounds hrks c, ?key⟩, ?undo⟩
  case key => rw [foldl_decRound_decFirst hrks, keyBackward_undoLastConstant hrks, roundKeys_zero hrks]
  case undo => rw [← encryptBlock_appendixB, decryptBlock_encryptBlock]

/-- Settles O46: the two round trips make each function the inverse of the other. -/
theorem cipherRoundTrip : Obligations.CipherRoundTrip := by
  intro k
  have left : Function.LeftInverse (decryptBlock · k) (encryptBlock · k) := fun p => decryptBlock_encryptBlock p k
  have right : Function.LeftInverse (encryptBlock · k) (decryptBlock · k) := fun c => encryptBlock_decryptBlock c k
  exact ⟨left, right, ⟨left.injective, right.surjective⟩, ⟨right.injective, left.surjective⟩⟩

/-- Settles O47: the commands leave `K`, so the second runs under the key of the first and the round trips apply. -/
theorem blockCipherCommands : Obligations.BlockCipherCommands := by
  refine ⟨⟨decode_encode (i := .encblk) rfl, decode_encode (i := .decblk) rfl⟩, fun _ => ⟨rfl, rfl⟩, ?undoEncryption,
    ?undoDecryption, ?encryptZero, ?decryptZero, encryptBlock_appendixC, ?undoExample⟩
  case undoEncryption =>
    intro m t u ht hu
    cases ht
    cases hu
    exact decryptBlock_encryptBlock m.s m.k
  case undoDecryption =>
    intro m t u ht hu
    cases ht
    cases hu
    exact encryptBlock_decryptBlock m.s m.k
  case encryptZero =>
    rw [encryptBlock_eq_table]
    decide +kernel
  case decryptZero =>
    rw [decryptBlock_eq_table]
    decide +kernel
  case undoExample => rw [← encryptBlock_appendixC, decryptBlock_encryptBlock]

end Sys2Proof.Machine

/-! Proofs of the statements on the modes of operation: each block mode is `blockMode` of a function on lists of blocks, CTR goes byte by
byte with a keystream, and each mode command is the frame `modeCommand` around its function. -/
namespace Sys2Proof.Machine

/-! ### The counter block -/

/-- A byte of the index in the counter block is a base-256 digit of the index. -/
theorem toNat_indexByte (j i : Nat) : (indexByte j i).toNat = j / 2 ^ (8 * (7 - i)) % 256 := by
  rw [indexByte, BitVec.toNat_ofNat, Nat.shiftRight_eq_div_pow]

theorem blockByte_counterBlock_nonce (n : Nonce) (j : Nat) (i : Fin 8) :
    blockByte (counterBlock n j) ⟨i.val, by omega⟩ = nonceByte n i := by
  fin_cases i <;> rfl

theorem blockByte_counterBlock_index (n : Nonce) (j : Nat) (i : Fin 8) :
    blockByte (counterBlock n j) ⟨8 + i.val, by omega⟩ = indexByte j i.val := by
  fin_cases i <;> rfl

/-- Numbers with the same `n` low digits in base `b` agree modulo `b ^ n`. -/
theorem mod_pow_eq_of_digits_eq {b j j' : Nat} (n : Nat) (h : ∀ i < n, j / b ^ i % b = j' / b ^ i % b) :
    j % b ^ n = j' % b ^ n := by
  induction n with
  | zero => simp [Nat.mod_one]
  | succ n ih => rw [Nat.mod_pow_succ, Nat.mod_pow_succ, ih fun i hi => h i (by omega), h n (by omega)]

/-- Indexes below `2^64` that share a counter block share their eight bytes. -/
theorem eq_of_counterBlock_eq {n : Nonce} {j j' : Nat} (hj : j < 2 ^ 64) (hj' : j' < 2 ^ 64)
    (h : counterBlock n j = counterBlock n j') : j = j' := by
  have same : ∀ i : Fin 8, indexByte j i.val = indexByte j' i.val := fun i => by
    rw [← blockByte_counterBlock_index n, h, blockByte_counterBlock_index]
  have bytes : ∀ i < 8, j / 256 ^ i % 256 = j' / 256 ^ i % 256 := fun i hi => by
    have := congrArg BitVec.toNat (same ⟨7 - i, by omega⟩)
    rwa [toNat_indexByte, toNat_indexByte, show 7 - (7 - i) = i by omega, pow_mul] at this
  have := mod_pow_eq_of_digits_eq 8 bytes
  rwa [Nat.mod_eq_of_lt (by omega), Nat.mod_eq_of_lt (by omega)] at this

/-- Settles O52: the index bytes are the eight base-256 digits of the index. -/
theorem counterBlockIsNonceThenBigEndianIndex : Obligations.CounterBlockIsNonceThenBigEndianIndex :=
  ⟨fun n j i => ⟨blockByte_counterBlock_nonce n j i, by rw [blockByte_counterBlock_index, toNat_indexByte]⟩,
    fun _ _ _ => eq_of_counterBlock_eq, by decide, by decide, by decide⟩

/-! ### The block modes as functions -/

/-- The byte string function that works on the blocks of its input by `g` (R202 to R204). -/
def blockMode (g : List Block → List Block) (input : List Byte) : Option (List Byte) :=
  (splitBlocks input).map fun bs => joinBlocks (g bs)

theorem ecb_eq_blockMode (f : Block → Block) : ecb f = blockMode (List.map f) := rfl

theorem cbcEncrypt_eq_blockMode (f : Block → Block) (iv : Block) : cbcEncrypt f iv = blockMode (cbcEncryptBlocks f iv) := rfl

theorem cbcDecrypt_eq_blockMode (f : Block → Block) (iv : Block) : cbcDecrypt f iv = blockMode (cbcDecryptBlocks f iv) := rfl

@[simp] theorem blockMode_joinBlocks (g : List Block → List Block) (bs : List Block) :
    blockMode g (joinBlocks bs) = some (joinBlocks (g bs)) := by simp [blockMode]

/-- Functions on blocks that undo each other do so on byte strings of whole blocks. -/
theorem blockMode_bind_blockMode {g g' : List Block → List Block} (h : ∀ bs, g' (g bs) = bs) {input : List Byte}
    (hinput : input.length % 16 = 0) : (blockMode g input).bind (blockMode g') = some input := by
  obtain ⟨bs, rfl, -⟩ := exists_joinBlocks (input.length / 16) input (by omega)
  rw [blockMode_joinBlocks, Option.bind_some, blockMode_joinBlocks, h]

/-! ### The round trips of the functions -/

theorem blockTransform_inverse_forward (k : Block) :
    Function.LeftInverse (blockTransform .inverse k) (blockTransform .forward k) := fun p => decryptBlock_encryptBlock p k

theorem blockTransform_forward_inverse (k : Block) :
    Function.LeftInverse (blockTransform .forward k) (blockTransform .inverse k) := fun c => encryptBlock_decryptBlock c k

theorem block_xor_cancel_right (x y : Block) : (x.xor y).xor y = x := addRoundKey_addRoundKey x y

/-- The output blocks of encryption are the input blocks that decryption chains (R207). -/
theorem cbcDecryptBlocks_cbcEncryptBlocks {f f' : Block → Block} (h : Function.LeftInverse f' f) (bs : List Block) :
    ∀ prev, cbcDecryptBlocks f' prev (cbcEncryptBlocks f prev bs) = bs := by
  induction bs with
  | nil => intro _; rfl
  | cons b bs ih => intro prev; simp only [cbcEncryptBlocks, cbcDecryptBlocks, h _, block_xor_cancel_right, ih]

section
variable {f f' : Block → Block} (h : Function.LeftInverse f' f) {input : List Byte} (hinput : input.length % 16 = 0)
include h hinput

theorem ecb_bind_ecb : (ecb f input).bind (ecb f') = some input := by
  rw [ecb_eq_blockMode, ecb_eq_blockMode]
  exact blockMode_bind_blockMode (fun bs => by simp [h.comp_eq_id]) hinput

theorem cbcEncrypt_bind_cbcDecrypt (iv : Block) : (cbcEncrypt f iv input).bind (cbcDecrypt f' iv) = some input := by
  rw [cbcEncrypt_eq_blockMode, cbcDecrypt_eq_blockMode]
  exact blockMode_bind_blockMode (fun bs => cbcDecryptBlocks_cbcEncryptBlocks h bs iv) hinput

end

/-! ### CTR byte by byte -/

/-- Byte `p` of the keystream (R206). -/
def keystreamByte (f : Block → Block) (nonce : Nonce) (p : Nat) : Byte :=
  blockByte (f (counterBlock nonce (p / 16))) ⟨p % 16, by omega⟩

/-- Each output byte is its input byte combined with the keystream byte at its place, counted from block `j`. -/
theorem getElem_ctrBlocks (f : Block → Block) (nonce : Nonce) (n : Nat) : ∀ (j : Nat) (input : List Byte) (p : Nat)
    (hn : input.length ≤ 16 * n) (hp : p < input.length),
    (ctrBlocks f nonce n j input)[p]'(by simpa [hn] using hp) = input[p] ^^^ keystreamByte f nonce (16 * j + p) := by
  induction n with
  | zero => intro j input p hn hp; omega
  | succ n ih =>
    intro j input p hn hp
    simp only [ctrBlocks, xorBytes]
    by_cases h16 : p < 16
    · rw [List.getElem_append_left (by simp; omega)]
      simp [getElem_blockBytes, keystreamByte, show (16 * j + p) / 16 = j by omega, Nat.mod_eq_of_lt h16]
    · rw [List.getElem_append_right (by simp; omega)]
      have := ih (j + 1) (input.drop 16) (p - 16) (by simp; omega) (by simp; omega)
      have hp16 : p - min (min 16 input.length) 16 = p - 16 := by omega
      simp only [List.length_zipWith, List.length_take, length_blockBytes, hp16, this, List.getElem_drop,
        show 16 * (j + 1) + (p - 16) = 16 * j + p by omega, show 16 + (p - 16) = p by omega]

theorem getElem_ctr (f : Block → Block) (nonce : Nonce) (input : List Byte) (p : Nat) (hp : p < input.length) :
    (ctr f nonce input)[p]'(by simpa using hp) = input[p] ^^^ keystreamByte f nonce p := by
  have := getElem_ctrBlocks f nonce ((input.length + 15) / 16) 0 input p (by omega) hp
  rwa [Nat.mul_zero, Nat.zero_add] at this

/-- CTR is self-inverse: the keystream does not depend on the input (R207). -/
theorem ctr_ctr (f : Block → Block) (nonce : Nonce) (input : List Byte) : ctr f nonce (ctr f nonce input) = input := by
  refine List.ext_getElem (by simp) fun p _ hp => ?_
  rw [getElem_ctr _ _ _ _ (by simpa using hp), getElem_ctr _ _ _ _ hp, BitVec.xor_assoc, BitVec.xor_self, BitVec.xor_zero]

/-- Settles O53: the two transforms under one key undo each other, block by block, and the keystream cancels. -/
theorem modesRoundTrip : Obligations.ModesRoundTrip := fun k iv n input =>
  ⟨fun hinput =>
    ⟨ecb_bind_ecb (blockTransform_inverse_forward k) hinput, ecb_bind_ecb (blockTransform_forward_inverse k) hinput,
      cbcEncrypt_bind_cbcDecrypt (blockTransform_inverse_forward k) hinput iv,
      cbcEncrypt_bind_cbcDecrypt (blockTransform_forward_inverse k) hinput iv⟩,
    ctr_ctr _ n input, ctr_ctr _ n input⟩

/-! ### Byte strings in memory -/

/-- The byte at an address after a write of a byte string: the string's byte where it has one there. -/
theorem Memory.read_writeBytes (cells : Memory) (a c : Nat) (vs : List Byte) :
    Memory.read (Memory.writeBytes cells a vs) c =
      if a ≤ c then (vs[c - a]?).getD (Memory.read cells c) else Memory.read cells c := by
  split
  · next hac =>
    by_cases hc : c - a < vs.length
    · have := Memory.read_writeBytes_inside vs cells a (c - a) hc
      rw [List.getElem?_eq_getElem hc, Option.getD_some, ← this, Nat.add_sub_of_le hac]
    · rw [List.getElem?_eq_none (by omega), Option.getD_none, Memory.read_writeBytes_above _ _ _ (by omega)]
  · next hac => exact Memory.read_writeBytes_below _ _ _ (by omega)

/-- Byte strings that agree from byte `n` on leave the same memory outside the first `n` bytes. -/
theorem Memory.read_writeBytes_of_drop_eq {xs ys : List Byte} {n : Nat} (h : xs.drop n = ys.drop n) (cells : Memory)
    {a c : Nat} (hc : c < a ∨ a + n ≤ c) :
    Memory.read (Memory.writeBytes cells a xs) c = Memory.read (Memory.writeBytes cells a ys) c := by
  have : a ≤ c → xs[c - a]? = ys[c - a]? := fun hac => by
    have := congrArg (·[c - a - n]?) h
    simpa [List.getElem?_drop, show n + (c - a - n) = c - a by omega] using this
  simp only [Memory.read_writeBytes]
  split
  · next hac => rw [this hac]
  · rfl

/-- A byte string reads back where it was written. -/
theorem Memory.readBytes_writeBytes (cells : Memory) (a : Nat) (vs : List Byte) :
    Memory.readBytes (Memory.writeBytes cells a vs) a vs.length = vs := by
  refine List.ext_getElem (by simp) fun i _ hi => ?_
  rw [Memory.getElem_readBytes, Memory.read_writeBytes_inside _ _ _ _ hi]

/-- Writing back the bytes that stand at an address undoes any write of that length there. -/
theorem Memory.read_writeBytes_readBytes (cells : Memory) (a c : Nat) (vs : List Byte) :
    Memory.read (Memory.writeBytes (Memory.writeBytes cells a vs) a (Memory.readBytes cells a vs.length)) c =
      Memory.read cells c := by
  by_cases hc : c < a ∨ a + vs.length ≤ c
  · rw [Memory.read_writeBytes_outside _ _ _ (by simpa using hc), Memory.read_writeBytes_outside _ _ _ hc]
  · obtain ⟨i, rfl⟩ : ∃ i, c = a + i := ⟨c - a, by omega⟩
    rw [Memory.read_writeBytes_inside _ _ _ _ (by simp; omega), Memory.getElem_readBytes]

/-! ### The frame of the mode commands -/

/-- The two checks of a mode command (R66, R201). -/
def ModeChecks (needs16 : Bool) (m : State) : Prop :=
  (needs16 = true → m.len.toNat % 16 = 0) ∧
    (m.src.toNat + m.len.toNat ≤ m.memBytes ∧ m.dst.toNat + m.len.toNat ≤ m.memBytes)

/-- The mode function has a result of the input's length whenever the length check passes (R201). -/
def HasResult (needs16 : Bool) (fn : List Byte → Option (List Byte)) (m : State) : Prop :=
  (needs16 = true → m.len.toNat % 16 = 0) → ∃ out, fn (inputBytes m) = some out ∧ out.length = m.len.toNat

theorem frameBuffer_fail (c : StatusCode) (m : State) (n : Nat) : FrameBuffer m (fail c m) n :=
  ⟨⟨rfl, rfl, rfl, rfl, rfl, rfl, rfl⟩, ⟨rfl, rfl, rfl⟩, ⟨rfl, rfl⟩, rfl, rfl, fun _ _ => rfl⟩

theorem frameBuffer_finishBuffer (out : List Byte) (m : State) : FrameBuffer m (finishBuffer out m) out.length :=
  ⟨⟨rfl, rfl, rfl, rfl, rfl, rfl, rfl⟩, ⟨rfl, rfl, rfl⟩, ⟨rfl, rfl⟩, rfl, rfl,
    fun _ => Memory.read_writeBytes_outside out m.mem m.dst.toNat⟩

/-- A mode command does not read `STATUS` and `RLEN`: each of its ends overwrites both. -/
theorem modeCommand_setResult (needs16 : Bool) (fn : List Byte → Option (List Byte)) (m : State) (c : StatusCode) (r : Word) :
    modeCommand needs16 fn { m with status := c, rlen := r } = modeCommand needs16 fn m := rfl

section
variable {needs16 : Bool} {fn : List Byte → Option (List Byte)} {m t : State}

/-- A mode command fails and leaves memory, or passes its checks and writes the result of its function. -/
theorem modeCommand_next (hfn : HasResult needs16 fn m) (h : modeCommand needs16 fn m = .next t) :
    (¬ModeChecks needs16 m ∧ ∃ c, t = fail c m) ∨
    (ModeChecks needs16 m ∧ ∃ out, fn (inputBytes m) = some out ∧ out.length = m.len.toNat ∧ t = finishBuffer out m) := by
  rcases modeCommand_cases needs16 fn m hfn with ⟨h16, hlen, heq⟩ | ⟨-, hr, heq⟩ | ⟨h16, hr, out, hout, hlen, heq⟩ <;>
    cases heq.symm.trans h
  · exact .inl ⟨fun hc => hlen (hc.1 h16), _, rfl⟩
  · exact .inl ⟨fun hc => hr hc.2, _, rfl⟩
  · exact .inr ⟨⟨h16, hr⟩, out, hout, hlen, rfl⟩

/-- What a mode command that passes its checks writes. -/
theorem eq_finishBuffer_of_modeCommand (hfn : HasResult needs16 fn m) (hc : ModeChecks needs16 m)
    (h : modeCommand needs16 fn m = .next t) :
    ∃ out, fn (inputBytes m) = some out ∧ out.length = m.len.toNat ∧ t = finishBuffer out m :=
  (modeCommand_next hfn h).elim (fun hn => absurd hc hn.1) And.right

/-- Whether it fails or not, a mode command writes the `LEN` bytes at `DST`, `RLEN` and `STATUS` alone (R212). -/
theorem frameBuffer_of_modeCommand (hfn : HasResult needs16 fn m) (h : modeCommand needs16 fn m = .next t) :
    FrameBuffer m t m.len.toNat := by
  rcases modeCommand_next hfn h with ⟨-, c, rfl⟩ | ⟨-, out, -, hlen, rfl⟩
  · exact frameBuffer_fail c m _
  · exact hlen ▸ frameBuffer_finishBuffer out m

/-- A mode command that passes its checks completes with `RLEN` the length, and `post` may describe what it leaves at `DST`. -/
theorem modeCommand_completes {post : State → Prop} (hfn : HasResult needs16 fn m) (hc : ModeChecks needs16 m)
    (hpost : ∀ t, modeCommand needs16 fn m = .next t → post t) :
    ∃ t, modeCommand needs16 fn m = .next t ∧ t.status = .ok ∧ t.rlen = m.len ∧ FrameBuffer m t m.len.toNat ∧ post t := by
  obtain ⟨out, hout, hlen⟩ := hfn hc.1
  have hnext := modeCommand_ok hc.1 hc.2 hout
  exact ⟨_, hnext, rfl, by simp [hlen], frameBuffer_of_modeCommand hfn hnext, hpost _ hnext⟩

/-- A mode command carries nothing over: on the same input it ends in the same state again. -/
theorem modeCommand_rerun (hfn : HasResult needs16 fn m) (h : modeCommand needs16 fn m = .next t) :
    modeCommand needs16 fn { t with mem := m.mem } = .next t := by
  rcases modeCommand_next hfn h with ⟨-, c, rfl⟩ | ⟨-, out, -, -, rfl⟩
  · exact (modeCommand_setResult needs16 fn m c _).trans h
  · exact (modeCommand_setResult needs16 fn m .ok _).trans h

/-- In place, a mode command whose function takes the first one's output back to its input restores memory. -/
theorem sameMem_of_modeCommand_undo {fn' : List Byte → Option (List Byte)} {out : List Byte} {u : State} (hsrc : m.src = m.dst)
    (hc : ModeChecks needs16 m) (hlen : out.length = m.len.toNat) (hback : fn' out = some (inputBytes m))
    (hu : modeCommand needs16 fn' (finishBuffer out m) = .next u) : SameMem m u := by
  have hin : inputBytes (finishBuffer out m) = out := by
    simp only [inputBytes, finishBuffer_mem, finishBuffer_src, finishBuffer_len, hsrc, ← hlen, Memory.readBytes_writeBytes]
  have hagain : fn' (inputBytes (finishBuffer out m)) = some (inputBytes m) := by rw [hin, hback]
  cases (modeCommand_ok (m := finishBuffer out m) hc.1 hc.2 hagain).symm.trans hu
  intro a
  simp only [inputBytes, finishBuffer_mem, finishBuffer_dst, hsrc, ← hlen, Memory.read_writeBytes_readBytes]

end

/-! ### The commands as the frame around a function -/

theorem exec_ecb (d : Dir) (m : State) :
    exec (.ecb d) m = modeCommand true (blockMode (List.map (blockTransform d m.k))) m := rfl

theorem exec_cbce (d : Dir) (m : State) :
    exec (.cbce d) m = modeCommand true (blockMode (cbcEncryptBlocks (blockTransform d m.k) m.cv)) m := rfl

theorem exec_cbcd (d : Dir) (m : State) :
    exec (.cbcd d) m = modeCommand true (blockMode (cbcDecryptBlocks (blockTransform d m.k) m.cv)) m := rfl

/-- The function of `CTR`, which has a result for every input. -/
def ctrMode (f : Block → Block) (nonce : Nonce) (input : List Byte) : Option (List Byte) := some (ctr f nonce input)

theorem hasResult_ctrMode (f : Block → Block) (nonce : Nonce) (m : State) : HasResult false (ctrMode f nonce) m :=
  ctr_result f nonce m

theorem exec_ctr (d : Dir) (m : State) :
    exec (.ctr d) m = modeCommand false (ctrMode (blockTransform d m.k) m.nonce) m := rfl

/-! ### What the block modes share -/

/-- The three outcomes of a command of a block mode; `post` describes what it leaves at `DST`. -/
theorem blockCommand_outcomes {m : State} {fn : List Byte → Option (List Byte)} {post : State → Prop} (hfn : HasResult true fn m)
    (hpost : ModeChecks true m → ∀ t, modeCommand true fn m = .next t → post t) :
    (m.len.toNat % 16 ≠ 0 → modeCommand true fn m = .next { m with status := .errLen, rlen := 0#32 }) ∧
    (m.len.toNat % 16 = 0 → ¬(m.src.toNat + m.len.toNat ≤ m.memBytes ∧ m.dst.toNat + m.len.toNat ≤ m.memBytes) →
      modeCommand true fn m = .next { m with status := .errRange, rlen := 0#32 }) ∧
    (m.len.toNat % 16 = 0 → m.src.toNat + m.len.toNat ≤ m.memBytes ∧ m.dst.toNat + m.len.toNat ≤ m.memBytes →
      ∃ t, modeCommand true fn m = .next t ∧ t.status = .ok ∧ t.rlen = m.len ∧ FrameBuffer m t m.len.toNat ∧ post t) :=
  ⟨modeCommand_errLen fn, fun h => modeCommand_errRange fn fun _ => h,
    fun h hr => modeCommand_completes hfn ⟨fun _ => h, hr⟩ (hpost ⟨fun _ => h, hr⟩)⟩

/-- A command of a block mode reads the blocks at `SRC` and leaves their image at `DST`. -/
theorem blocks_of_blockMode {g : List Block → List Block} {m t : State} (hc : ModeChecks true m)
    (h : modeCommand true (blockMode g) m = .next t) :
    ∃ bs, m.len.toNat = 16 * bs.length ∧
      (∀ i (hi : i < bs.length), Memory.readBlock m.mem (m.src.toNat + 16 * i) = bs[i]) ∧
      ∀ i (hi : i < (g bs).length), Memory.readBlock t.mem (m.dst.toNat + 16 * i) = (g bs)[i] := by
  have h16 := hc.1 rfl
  obtain ⟨bs, hbs, hn⟩ := exists_joinBlocks (m.len.toNat / 16) (inputBytes m) (by simp; omega)
  cases (modeCommand_ok hc.1 hc.2 (hbs ▸ blockMode_joinBlocks g bs)).symm.trans h
  exact ⟨bs, by omega, fun i => Memory.readBlock_of_readBytes hbs, fun i => Memory.readBlock_writeBytes m.mem _ (g bs)⟩

/-! ### What each block mode leaves at `DST` -/

section
variable {d : Dir} {m t : State} (hc : ModeChecks true m)
include hc

theorem readBlock_of_exec_ecb (h : exec (.ecb d) m = .next t) {i : Nat} (hi : 16 * i < m.len.toNat) :
    Memory.readBlock t.mem (m.dst.toNat + 16 * i) =
      blockTransform d m.k (Memory.readBlock m.mem (m.src.toNat + 16 * i)) := by
  rw [exec_ecb] at h
  obtain ⟨bs, hlen, hin, hout⟩ := blocks_of_blockMode hc h
  rw [hin i (by omega), hout i (by simp; omega), List.getElem_map]

theorem readBlock_zero_of_exec_cbce (h : exec (.cbce d) m = .next t) (hpos : 0 < m.len.toNat) :
    Memory.readBlock t.mem m.dst.toNat = blockTransform d m.k ((Memory.readBlock m.mem m.src.toNat).xor m.cv) := by
  rw [exec_cbce] at h
  obtain ⟨bs, hlen, hin, hout⟩ := blocks_of_blockMode hc h
  have hbs : 0 < bs.length := by omega
  exact (hout 0 (by simpa)).trans ((cbcEncryptBlocks_zero _ _ _ hbs).trans (by rw [← hin 0 hbs]; rfl))

theorem readBlock_succ_of_exec_cbce (h : exec (.cbce d) m = .next t) {i : Nat} (hi : 16 * (i + 1) < m.len.toNat) :
    Memory.readBlock t.mem (m.dst.toNat + 16 * (i + 1)) =
      blockTransform d m.k ((Memory.readBlock m.mem (m.src.toNat + 16 * (i + 1))).xor
        (Memory.readBlock t.mem (m.dst.toNat + 16 * i))) := by
  rw [exec_cbce] at h
  obtain ⟨bs, hlen, hin, hout⟩ := blocks_of_blockMode hc h
  rw [hin (i + 1) (by omega), hout (i + 1) (by simp; omega), hout i (by simp; omega),
    cbcEncryptBlocks_succ _ _ _ _ (by omega)]

theorem readBlock_zero_of_exec_cbcd (h : exec (.cbcd d) m = .next t) (hpos : 0 < m.len.toNat) :
    Memory.readBlock t.mem m.dst.toNat = (blockTransform d m.k (Memory.readBlock m.mem m.src.toNat)).xor m.cv := by
  rw [exec_cbcd] at h
  obtain ⟨bs, hlen, hin, hout⟩ := blocks_of_blockMode hc h
  have hbs : 0 < bs.length := by omega
  exact (hout 0 (by simpa)).trans ((cbcDecryptBlocks_zero _ _ _ hbs).trans (by rw [← hin 0 hbs]; rfl))

theorem readBlock_succ_of_exec_cbcd (h : exec (.cbcd d) m = .next t) {i : Nat} (hi : 16 * (i + 1) < m.len.toNat) :
    Memory.readBlock t.mem (m.dst.toNat + 16 * (i + 1)) =
      (blockTransform d m.k (Memory.readBlock m.mem (m.src.toNat + 16 * (i + 1)))).xor
        (Memory.readBlock m.mem (m.src.toNat + 16 * i)) := by
  rw [exec_cbcd] at h
  obtain ⟨bs, hlen, hin, hout⟩ := blocks_of_blockMode hc h
  rw [hin (i + 1) (by omega), hin i (by omega), hout (i + 1) (by simp; omega), cbcDecryptBlocks_succ _ _ _ _ (by omega)]

end

/-- What `CTR` leaves at `DST`. -/
theorem read_of_exec_ctr {d : Dir} {m t : State} (hc : ModeChecks false m) (h : exec (.ctr d) m = .next t) {p : Nat}
    (hp : p < m.len.toNat) :
    Memory.read t.mem (m.dst.toNat + p) =
      Memory.read m.mem (m.src.toNat + p) ^^^ keystreamByte (blockTransform d m.k) m.nonce p := by
  rw [exec_ctr] at h
  obtain ⟨out, hout, hlen, rfl⟩ := eq_finishBuffer_of_modeCommand (hasResult_ctrMode _ _ m) hc h
  cases hout
  rw [finishBuffer_mem, Memory.read_writeBytes_inside _ _ _ _ (by omega), getElem_ctr _ _ _ _ (by simpa using hp)]
  exact congrArg (· ^^^ _) (Memory.getElem_readBytes _ _ _ _ _)

/-! ### In place and under another chaining value -/

/-- Under another chaining value only output block 0 of CBC decryption differs. -/
theorem drop_cbcDecrypt (f : Block → Block) (iv iv' : Block) {input out out' : List Byte}
    (h : cbcDecrypt f iv input = some out) (h' : cbcDecrypt f iv' input = some out') : out.drop 16 = out'.drop 16 := by
  obtain ⟨bs, hbs, rfl⟩ := Option.map_eq_some_iff.1 h
  obtain ⟨bs', hbs', rfl⟩ := Option.map_eq_some_iff.1 h'
  cases hbs.symm.trans hbs'
  cases bs with
  | nil => rfl
  | cons b bs => simp only [cbcDecryptBlocks, joinBlocks_cons, List.drop_left' (length_blockBytes _)]

/-- In place, CBC decryption with the inverse transform undoes CBC encryption under the same `K` and `CV`. -/
theorem sameMem_of_cbce_cbcd {d d' : Dir} {m t u : State} (hinv : Function.LeftInverse (blockTransform d' m.k) (blockTransform d m.k))
    (hsrc : m.src = m.dst) (hc : ModeChecks true m) (ht : exec (.cbce d) m = .next t) (hu : exec (.cbcd d') t = .next u) :
    SameMem m u := by
  obtain ⟨out, hout, hlen, rfl⟩ := eq_finishBuffer_of_modeCommand (cbcEncrypt_result _ m.cv m) hc ht
  have hback := cbcEncrypt_bind_cbcDecrypt hinv (input := inputBytes m) (by simpa using hc.1 rfl) m.cv
  rw [hout, Option.bind_some] at hback
  exact sameMem_of_modeCommand_undo hsrc hc hlen hback hu

/-- In place, `CTR` undoes itself under the same `K` and `NONCE`. -/
theorem sameMem_of_ctr_ctr {d : Dir} {m t u : State} (hsrc : m.src = m.dst) (hc : ModeChecks false m)
    (ht : exec (.ctr d) m = .next t) (hu : exec (.ctr d) t = .next u) : SameMem m u := by
  rw [exec_ctr] at ht
  obtain ⟨out, hout, hlen, rfl⟩ := eq_finishBuffer_of_modeCommand (hasResult_ctrMode _ _ m) hc ht
  cases hout
  exact sameMem_of_modeCommand_undo (fn' := ctrMode _ _) hsrc hc hlen (congrArg some (ctr_ctr _ _ _)) hu

/-! ### Known answers of SP 800-38A -/

theorem ecb_example : ecb (blockTransform .forward (blockOfHex 0x2b7e151628aed2a6abf7158809cf4f3c))
      (bytesOfHex 16 0x6bc1bee22e409f96e93d7e117393172a) = some (bytesOfHex 16 0x3ad77bb40d7a3660a89ecaf32466ef97) := by
  rw [blockTransform_forward_eq_table]
  decide +kernel

theorem cbcEncrypt_example : cbcEncrypt (blockTransform .forward (blockOfHex 0x2b7e151628aed2a6abf7158809cf4f3c))
      (blockOfHex 0x000102030405060708090a0b0c0d0e0f)
      (bytesOfHex 32 0x6bc1bee22e409f96e93d7e117393172aae2d8a571e03ac9c9eb76fac45af8e51) =
    some (bytesOfHex 32 0x7649abac8119b246cee98e9b12e9197d5086cb9b507219ee95db113a917678b2) := by
  rw [blockTransform_forward_eq_table]
  decide +kernel

/-! ### The statements on commands -/

/-- Settles O54: each mode command is the frame around a function that keeps the length. -/
theorem modeCommandsLeaveTheRestAlone : Obligations.ModeCommandsLeaveTheRestAlone := by
  intro i d m t hi h
  simp only [List.mem_cons, List.not_mem_nil, or_false] at hi
  rcases hi with rfl | rfl | rfl | rfl
  · exact frameBuffer_of_modeCommand (ecb_result _ m) h
  · exact frameBuffer_of_modeCommand (cbcEncrypt_result _ _ m) h
  · exact frameBuffer_of_modeCommand (cbcDecrypt_result _ _ m) h
  · exact frameBuffer_of_modeCommand (hasResult_ctrMode _ _ m) h

/-- Settles O48: the blocks written are the image of the blocks read before. -/
theorem ecbTransformsEachBlock : Obligations.EcbTransformsEachBlock :=
  ⟨⟨decode_encode (i := .ecb .forward) rfl, decode_encode (i := .ecb .inverse) rfl⟩,
    fun _ m => blockCommand_outcomes (ecb_result _ m) fun hc _ h _ => readBlock_of_exec_ecb hc h,
    fun _ _ => ⟨rfl, rfl⟩, ecb_example⟩

/-- Settles O49: the chaining is that of `cbcEncryptBlocks`, started at `CV`, which the command does not write. -/
theorem cbcEncryptChainsOutputBlocks : Obligations.CbcEncryptChainsOutputBlocks := by
  refine ⟨⟨decode_encode (i := .cbce .forward) rfl, decode_encode (i := .cbce .inverse) rfl⟩, fun d m => ?outcomes, ?zero,
    fun d m t h => ?rerun, cbcEncrypt_example⟩
  case outcomes =>
    exact blockCommand_outcomes (cbcEncrypt_result _ _ m) fun hc _ h =>
      ⟨readBlock_zero_of_exec_cbce hc h, fun _ => readBlock_succ_of_exec_cbce hc h⟩
  case zero =>
    intro d m t hpos h16 hr hcv h
    rw [readBlock_zero_of_exec_cbce ⟨fun _ => h16, hr⟩ h hpos, hcv]
    exact congrArg _ (addRoundKey_zero _)
  case rerun =>
    obtain ⟨⟨hk, hcv, -⟩, -⟩ := frameBuffer_of_modeCommand (cbcEncrypt_result _ _ m) h
    have := modeCommand_rerun (cbcEncrypt_result _ _ m) h
    rwa [← hk, ← hcv] at this

/-- Settles O50: the chaining is that of `cbcDecryptBlocks`, which undoes `cbcEncryptBlocks` and uses `CV` in block 0 alone. -/
theorem cbcDecryptChainsInputBlocks : Obligations.CbcDecryptChainsInputBlocks := by
  refine ⟨⟨decode_encode (i := .cbcd .forward) rfl, decode_encode (i := .cbcd .inverse) rfl⟩, fun d m => ?outcomes, ?undo,
    ?otherCv, ?knownAnswer⟩
  case outcomes =>
    exact blockCommand_outcomes (cbcDecrypt_result _ _ m) fun hc _ h =>
      ⟨readBlock_zero_of_exec_cbcd hc h, fun _ => readBlock_succ_of_exec_cbcd hc h⟩
  case undo =>
    intro m t u hsrc h16 hr
    have hc : ModeChecks true m := ⟨fun _ => h16, hr⟩
    exact ⟨sameMem_of_cbce_cbcd (blockTransform_inverse_forward m.k) hsrc hc,
      sameMem_of_cbce_cbcd (blockTransform_forward_inverse m.k) hsrc hc⟩
  case otherCv =>
    intro d m t u iv ht hu
    have hfn := cbcDecrypt_result (blockTransform d m.k) iv { m with cv := iv }
    rcases modeCommand_next (cbcDecrypt_result _ _ m) ht with ⟨hc, c, rfl⟩ | ⟨hc, out, hout, -, rfl⟩
    · rcases modeCommand_next hfn hu with ⟨-, c', rfl⟩ | ⟨hc', -⟩
      · exact fun _ _ => rfl
      · exact absurd hc' hc
    · obtain ⟨out', hout', -, rfl⟩ := eq_finishBuffer_of_modeCommand hfn hc hu
      exact fun a => Memory.read_writeBytes_of_drop_eq (drop_cbcDecrypt _ iv m.cv hout' hout) m.mem
  case knownAnswer =>
    have := cbcEncrypt_bind_cbcDecrypt (blockTransform_inverse_forward (blockOfHex 0x2b7e151628aed2a6abf7158809cf4f3c))
      (input := bytesOfHex 32 0x6bc1bee22e409f96e93d7e117393172aae2d8a571e03ac9c9eb76fac45af8e51) rfl
      (blockOfHex 0x000102030405060708090a0b0c0d0e0f)
    rwa [cbcEncrypt_example, Option.bind_some] at this

/-- Settles O51: the output goes byte by byte with the keystream, which combined twice cancels. -/
theorem ctrCombinesWithTheKeystream : Obligations.CtrCombinesWithTheKeystream := by
  refine ⟨⟨decode_encode (i := .ctr .forward) rfl, decode_encode (i := .ctr .inverse) rfl⟩, fun d m => ?outcomes,
    fun _ _ _ _ hsrc hr => sameMem_of_ctr_ctr hsrc ⟨nofun, hr⟩, ?knownAnswer⟩
  case outcomes =>
    rw [exec_ctr]
    refine ⟨modeCommand_errRange _ nofun, fun hr => ?_⟩
    have hc : ModeChecks false m := ⟨nofun, hr⟩
    exact modeCommand_completes (hasResult_ctrMode _ _ m) hc fun _ h _ => read_of_exec_ctr hc h
  case knownAnswer =>
    rw [blockTransform_forward_eq_table]
    decide +kernel

end Sys2Proof.Machine

/-! Proofs of the padding statements: what makes a padding valid is said once for a byte string and once for the input in memory, and `pad`,
`unpad` and their commands are described by it. -/
namespace Sys2Proof.Machine

/-! ### Valid padding -/

/-- The buffer ends in `n` bytes of value `n`, and `n` is not 0 (R231). -/
def ValidPadding (buf : List Byte) (n : Byte) : Prop :=
  buf.getLast? = some n ∧ n ≠ 0#8 ∧ n.toNat ≤ buf.length ∧ ∀ i b, buf.length - n.toNat ≤ i → buf[i]? = some b → b = n

theorem all_drop_beq_iff {buf : List Byte} {k : Nat} {n : Byte} :
    (buf.drop k).all (· == n) = true ↔ ∀ i b, k ≤ i → buf[i]? = some b → b = n := by
  simp only [List.all_eq_true, beq_iff_eq, List.mem_iff_getElem?, List.getElem?_drop]
  constructor
  · intro h i b hi hb
    exact h b ⟨i - k, by rwa [Nat.add_sub_of_le hi]⟩
  · rintro h b ⟨j, hb⟩
    exact h (k + j) b (Nat.le_add_right k j) hb

section
variable {buf : List Byte}

theorem unpad_of_validPadding {n : Byte} (h : ValidPadding buf n) : unpad buf = some (buf.take (buf.length - n.toNat)) := by
  obtain ⟨hlast, h0, hlen, hall⟩ := h
  simp [unpad, hlast, h0, Nat.not_lt.2 hlen, all_drop_beq_iff.2 hall]

theorem exists_validPadding_of_unpad {out : List Byte} (h : unpad buf = some out) : ∃ n, ValidPadding buf n := by
  unfold unpad at h
  split at h
  · cases h
  next n hlast =>
    split_ifs at h with h0 hlen hall
    exact ⟨n, hlast, h0, Nat.not_lt.1 hlen, all_drop_beq_iff.1 hall⟩

theorem unpad_of_not_validPadding (h : ∀ n, ¬ValidPadding buf n) : unpad buf = none :=
  Option.eq_none_iff_forall_ne_some.2 fun _ hout => (exists_validPadding_of_unpad hout).elim h

end

/-! ### Padding is valid -/

/-- The padding fills the last block (R230). -/
theorem add_padCount_mod (length : Nat) {bs : Nat} (h : 0 < bs) : (length + padCount length bs) % bs = 0 := by
  have hfull : length + padCount length bs = bs * (length / bs + 1) := by
    have := Nat.div_add_mod length bs
    have := Nat.mod_lt length h
    rw [padCount, Nat.mul_succ]
    omega
  rw [hfull, Nat.mul_mod_right]

section
variable {n : Nat}

theorem toNat_padByte (hn : n ≤ 255) : (BitVec.ofNat 8 n).toNat = n := Nat.mod_eq_of_lt (Nat.lt_succ_of_le hn)

theorem validPadding_appendPad (buf : List Byte) (h0 : 1 ≤ n) (hn : n ≤ 255) :
    ValidPadding (appendPad buf n) (BitVec.ofNat 8 n) := by
  have hval := toNat_padByte hn
  refine ⟨?last, ?nonzero, ?fits, fun i b hi hb => ?equal⟩
  case last => simp [appendPad, List.getLast?_append, List.getLast?_replicate, Nat.ne_of_gt h0]
  case nonzero =>
    intro hz
    rw [hz] at hval
    exact Nat.ne_of_lt h0 hval
  case fits => simp [hval]
  case equal =>
    have hbuf : buf.length ≤ i := by simpa [hval] using hi
    rw [appendPad, List.getElem?_append_right hbuf] at hb
    exact List.eq_of_mem_replicate (List.mem_of_getElem? hb)

theorem unpad_appendPad (buf : List Byte) (h0 : 1 ≤ n) (hn : n ≤ 255) : unpad (appendPad buf n) = some buf := by
  rw [unpad_of_validPadding (validPadding_appendPad buf h0 hn), toNat_padByte hn, length_appendPad, Nat.add_sub_cancel, appendPad,
    List.take_left]

end

/-! ### The input in memory -/

theorem getElem?_inputBytes {m : State} {i : Nat} (hi : i < m.len.toNat) :
    (inputBytes m)[i]? = some (Memory.read m.mem (m.src.toNat + i)) :=
  (List.getElem?_eq_getElem (by simpa)).trans (congrArg some (Memory.getElem_readBytes ..))

theorem getLast?_inputBytes {m : State} (h : 0 < m.len.toNat) :
    (inputBytes m).getLast? = some (Memory.read m.mem (m.src.toNat + m.len.toNat - 1)) := by
  rw [List.getLast?_eq_getElem?, length_inputBytes, getElem?_inputBytes (Nat.sub_one_lt_of_lt h), Nat.add_sub_assoc h]

/-- The input has a valid padding exactly when the bytes at `SRC` are so. -/
theorem validPadding_inputBytes_iff {m : State} {n : Byte} :
    ValidPadding (inputBytes m) n ↔
      0 < m.len.toNat ∧ Memory.read m.mem (m.src.toNat + m.len.toNat - 1) = n ∧ n ≠ 0#8 ∧ n.toNat ≤ m.len.toNat ∧
      ∀ i, m.len.toNat - n.toNat ≤ i → i < m.len.toNat → Memory.read m.mem (m.src.toNat + i) = n := by
  rw [ValidPadding, length_inputBytes]
  constructor
  · rintro ⟨hlast, h0, hlen, hall⟩
    have hpos : 0 < m.len.toNat := by
      rw [← length_inputBytes]
      exact List.length_pos_of_mem (List.mem_of_getLast? hlast)
    rw [getLast?_inputBytes hpos, Option.some.injEq] at hlast
    exact ⟨hpos, hlast, h0, hlen, fun i hi hlt => hall i _ hi (getElem?_inputBytes hlt)⟩
  · rintro ⟨hpos, hlast, h0, hlen, hall⟩
    refine ⟨hlast ▸ getLast?_inputBytes hpos, h0, hlen, fun i b hi hb => ?_⟩
    have hlt : i < m.len.toNat := by simpa using (List.getElem?_eq_some_iff.1 hb).1
    rw [getElem?_inputBytes hlt, Option.some.injEq] at hb
    exact hb ▸ hall i hi hlt

/-! ### The commands -/

theorem read_finishBuffer {out : List Byte} {m : State} {j : Nat} (hj : j < out.length) :
    Memory.read (finishBuffer out m).mem (m.dst.toNat + j) = out[j] :=
  Memory.read_writeBytes_inside out m.mem _ j hj

theorem exec_pad_errRange {bs : Byte} {m : State} (h0 : bs ≠ 0#8) (hr : ¬buffersInRange m (.pad bs)) :
    exec (.pad bs) m = .next (fail .errRange m) := by
  have hchecks : ¬(srcInRange m = true ∧ dstInRange (m.len.toNat + padCount m.len.toNat bs.toNat) m = true) := by
    rwa [srcInRange_iff, dstInRange_iff]
  exact (if_neg h0).trans (if_neg hchecks)

theorem exec_pad_ok {bs : Byte} {m : State} (h0 : bs ≠ 0#8) (hr : buffersInRange m (.pad bs)) :
    exec (.pad bs) m = .next (finishBuffer (appendPad (inputBytes m) (padCount m.len.toNat bs.toNat)) m) := by
  have hchecks : srcInRange m = true ∧ dstInRange (m.len.toNat + padCount m.len.toNat bs.toNat) m = true := by
    rwa [srcInRange_iff, dstInRange_iff]
  exact (if_neg h0).trans (if_pos hchecks)

theorem exec_unpad_errRange {m : State} (hr : ¬buffersInRange m .unpad) : exec .unpad m = .next (fail .errRange m) :=
  if_neg (mt (srcInRange_iff m).1 hr)

theorem exec_unpad_errPad {m : State} (hr : buffersInRange m .unpad) (h : ∀ n, ¬ValidPadding (inputBytes m) n) :
    exec .unpad m = .next (fail .errPad m) := by
  simp only [exec, execUnpad, (srcInRange_iff m).2 hr, if_true, unpad_of_not_validPadding h]

theorem exec_unpad_ok {m : State} {n : Byte} (hr : buffersInRange m .unpad) (h : ValidPadding (inputBytes m) n) :
    exec .unpad m = .next (finishLength (m.len.toNat - n.toNat) m) := by
  have hout : ((inputBytes m).take ((inputBytes m).length - n.toNat)).length = m.len.toNat - n.toNat := by simp
  simp only [exec, execUnpad, (srcInRange_iff m).2 hr, if_true, unpad_of_validPadding h, hout]

/-- A length less `n`, as a word (R234). -/
theorem ofNat_sub_toNat {len : Word} {n : Nat} (h : n ≤ len.toNat) : BitVec.ofNat 32 (len.toNat - n) = len - BitVec.ofNat 32 n := by
  rw [← BitVec.ofNat_sub_ofNat_of_le _ _ (Nat.lt_of_le_of_lt h len.isLt) h, BitVec.ofNat_toNat, BitVec.setWidth_eq]

/-! ### The statements -/

/-- Settles O57: what `pad` appends is a valid padding, and a buffer with a valid padding has none of the three faults. -/
theorem unpadUndoesPad : Obligations.UnpadUndoesPad := by
  refine ⟨fun buf bs h1 h255 => ?undo, fun buf n hlast hfault => ?reject, [1#8], [], 2, rfl, by decide, by decide, by decide⟩
  case undo =>
    obtain ⟨hpos, hle⟩ := padCount_bounds buf.length h1
    refine ⟨appendPad buf (padCount buf.length bs), if_pos ⟨h1, h255⟩, ?_, unpad_appendPad buf hpos (hle.trans h255)⟩
    rw [length_appendPad, add_padCount_mod _ h1]
  case reject =>
    refine unpad_of_not_validPadding fun n' ⟨hlast', h0, hlen, hall⟩ => ?_
    obtain rfl : n = n' := Option.some.inj (hlast.symm.trans hlast')
    rcases hfault with hzero | hshort | ⟨i, b, hi, hb, hne⟩
    · exact h0 hzero
    · exact Nat.not_lt.2 hlen hshort
    · exact hne (hall i b hi hb)

/-- Settles O55: the output is the input with its padding, and memory holds it byte by byte. -/
theorem padAppendsTheCount : Obligations.PadAppendsTheCount := by
  refine ⟨fun bs h0 => ?word, fun bs m h0 => ⟨exec_pad_errRange h0, fun hr => ?ok⟩, by decide +kernel⟩
  case word => exact encode_of_operandB_eq_zero (i := .pad bs) rfl ▸ decode_encode (decide_eq_true h0)
  case ok =>
    have hbs : 0 < bs.toNat := Nat.pos_of_ne_zero fun hz => h0 (BitVec.eq_of_toNat_eq hz)
    obtain ⟨hpos, hle⟩ := padCount_bounds m.len.toNat hbs
    have hlength : (appendPad (inputBytes m) (padCount m.len.toNat bs.toNat)).length = m.len.toNat + padCount m.len.toNat bs.toNat := by
      simp
    have hfit : m.len.toNat + padCount m.len.toNat bs.toNat < 2 ^ 32 :=
      Nat.lt_of_le_of_lt ((Nat.le_add_left _ _).trans hr.2) m.memBytes_lt
    refine ⟨_, padCount m.len.toNat bs.toNat, rfl, hpos, hle, add_padCount_mod _ hbs, exec_pad_ok h0 hr, rfl, ?rlen,
      hlength ▸ frameBuffer_finishBuffer _ m, fun j hj => ?input, fun j hj hlt => ?padding⟩
    case rlen => rw [finishBuffer_rlen, hlength, BitVec.toNat_ofNat, Nat.mod_eq_of_lt hfit]
    case input =>
      rw [read_finishBuffer (by omega)]
      simp [appendPad, hj, inputBytes, Memory.getElem_readBytes]
    case padding =>
      rw [read_finishBuffer (by omega)]
      simp [appendPad, hj]

/-- Settles O56: the bytes at `SRC` decide whether the input has a valid padding. -/
theorem unpadAcceptsExactlyValidPadding : Obligations.UnpadAcceptsExactlyValidPadding := by
  refine ⟨decode_encode (i := .unpad) rfl, fun m => ⟨exec_unpad_errRange, fun hr => ?inRange⟩, by decide +kernel, by decide +kernel⟩
  case inRange =>
    intro n valid
    have hvalid : valid ↔ ValidPadding (inputBytes m) (Memory.read m.mem (m.src.toNat + m.len.toNat - 1)) := by
      simp [valid, n, validPadding_inputBytes_iff, ← BitVec.toNat_inj]
    refine ⟨fun hv => ?valid, fun hv => exec_unpad_errPad hr fun n' hn' => ?invalid⟩
    case valid =>
      rw [exec_unpad_ok hr (hvalid.1 hv), finishLength, ofNat_sub_toNat hv.2.2.1]
      rfl
    case invalid =>
      obtain ⟨-, hlast, -⟩ := validPadding_inputBytes_iff.1 hn'
      exact hv (hvalid.2 (hlast ▸ hn'))

end Sys2Proof.Machine

/-! Proofs of the exception statements: which host actions are refused, and which check decides the code a command ends with. -/
namespace Sys2Proof.Machine

/-! ### Which host actions are refused -/

/-- A register access that is well formed reaches a register, and a malformed one is answered with an error (R36, R261). Reads and writes
are malformed alike. -/
theorem portReg_outcome (limit off bits : Nat) :
    (malformed limit (.regRead off bits) = false ∧ ∃ r, portReg off bits = .ok r) ∨
    (malformed limit (.regRead off bits) = true ∧ ∃ e, portReg off bits = .error e) := by
  rcases portReg_cases off bits with ⟨r, hport, hbits, hat⟩ | ⟨hport, -, hat⟩ | ⟨hport, hbits⟩
  · exact .inl ⟨by simp [malformed, hbits, hat], r, hport⟩
  · exact .inr ⟨by simp [malformed, hat], _, hport⟩
  · exact .inr ⟨by simp [malformed, hbits], _, hport⟩

/-- Every command has a next state (R250). -/
theorem exec_next (i : Instr) (m : State) : ∃ t, exec i m = .next t :=
  (exec_next_sameRun i m).imp fun _ h => h.1

/-- A host action has a next state when it is well formed, and is refused when it is malformed (R261). -/
theorem act_outcome (a : HostAction) (m : State) :
    (malformed m.memBytes a = false ∧ ∃ t, act a m = .next t) ∨
    (malformed m.memBytes a = true ∧ ∃ r, act a m = .refused r) := by
  cases a with
  | regRead off bits =>
    rcases portReg_outcome m.memBytes off bits with ⟨hok, r, hport⟩ | ⟨hbad, e, hport⟩
    · exact .inl ⟨hok, observe (.register (readReg r m)) m, by simp only [act, hostRegRead, hport]⟩
    · exact .inr ⟨hbad, e, by simp only [act, hostRegRead, hport]⟩
  | regWrite off bits v =>
    rcases portReg_outcome m.memBytes off bits with ⟨hok, r, hport⟩ | ⟨hbad, e, hport⟩
    · refine .inl ⟨hok, ?_⟩
      simp only [act, hostRegWrite, hport]
      split
      · exact (runCommand_next_cmd v m).imp fun _ h => h.1
      · exact ⟨_, rfl⟩
    · exact .inr ⟨hbad, e, by simp only [act, hostRegWrite, hport]⟩
  | bufRead a =>
    obtain ha | ha := Nat.lt_or_ge a m.memBytes
    · exact .inl ⟨by simpa [malformed] using ha, _, if_pos ha⟩
    · exact .inr ⟨by simpa [malformed] using ha, _, if_neg (Nat.not_lt.2 ha)⟩
  | bufWrite a b =>
    obtain ha | ha := Nat.lt_or_ge a m.memBytes
    · exact .inl ⟨by simpa [malformed] using ha, _, if_pos ha⟩
    · exact .inr ⟨by simpa [malformed] using ha, _, if_neg (Nat.not_lt.2 ha)⟩
  | reset image => exact .inl ⟨rfl, _, rfl⟩

/-- The same of a step with a host action left (R11). -/
theorem step_outcome {m : State} {a : HostAction} {rest : List HostAction} (h : m.script = a :: rest) :
    (malformed m.memBytes a = false ∧ ∃ t, step m = .next t) ∨
    (malformed m.memBytes a = true ∧ ∃ r, step m = .refused r) := by
  rw [step_of_script h]
  exact act_outcome a { m with script := rest }

/-- Settles O14: the idle step (R260). -/
theorem idleCoreKeepsItsState : Obligations.IdleCoreKeepsItsState := by
  intro m h
  simp only [step, hostStep, h]

/-- Settles O12: the two outcomes of a step go with the two values of `malformed`. -/
theorem malformedActionsAreRefused : Obligations.MalformedActionsAreRefused := by
  intro m a rest h
  rcases step_outcome h with ⟨hok, t, ht⟩ | ⟨hbad, hr⟩
  · simp [hok, ht]
  · exact ⟨fun _ => hbad, fun _ => hr⟩

/-- Settles O13: a command ends in one of six next states, there is no fault to answer, and a step without a next state has refused the
malformed action it began with. -/
theorem onlyMalformedActionsHaveNoNextState : Obligations.OnlyMalformedActionsHaveNoNextState := by
  refine ⟨exec_next, fun _ f => (nomatch f), fun m => ?_⟩
  cases hm : m.script with
  | nil => exact .inl ⟨m, idleCoreKeepsItsState m hm⟩
  | cons a rest =>
    rcases step_outcome hm with ⟨-, ht⟩ | ⟨hbad, r, hr⟩
    · exact .inl ht
    · exact .inr ⟨a, rest, r, rfl, hbad, hr⟩

/-! ### What a failed command writes -/

theorem clearsRlen_iff {c : StatusCode} : clearsRlen c = true ↔ c = .errLen ∨ c = .errRange ∨ c = .errPad := by
  cases c <;> decide

/-- A command whose code is not `OK` has ended with `fail` (R13, R254). -/
theorem eq_fail_of_exec {i : Instr} {m t : State} (h : exec i m = .next t) (hne : t.status ≠ .ok) : t = fail t.status m := by
  rcases exec_forms i m with ⟨_, he, -⟩ | ⟨_, he, -⟩ | ⟨_, he, -⟩ | ⟨_, _, he, -⟩ | ⟨_, he, -⟩ | ⟨_, he, -⟩ <;>
    cases he.symm.trans h
  · rfl
  all_goals exact absurd rfl hne

/-- Settles O26: the writes of `fail`. -/
theorem failedCommandChangesNothingElse : Obligations.FailedCommandChangesNothingElse := by
  refine ⟨fun i m t h hne => ?_, fun w m e h => runCommand_of_decode_error m h⟩
  simpa only [fail, clearsRlen_iff] using eq_fail_of_exec h hne

/-- Settles O25: of the six forms in which a command ends only `fail` has another code than `OK`, and none of the fifteen opcodes is
among those of the commands that can end so. -/
theorem infallibleCommandsEndOk : Obligations.InfallibleCommandsEndOk := by
  intro i m hop
  rcases exec_forms i m with ⟨c, -, -, hfail, -⟩ | ⟨_, he, -⟩ | ⟨_, he, -⟩ | ⟨_, _, he, -⟩ | ⟨_, he, -⟩ | ⟨_, he, -⟩
  · exact absurd hfail ((by decide : ∀ op ∈ _, op ∉ _) _ hop)
  all_goals exact ⟨_, he, rfl⟩

/-! ### Which check decides the code -/

/-- The cause of each code of a well-formed command: that check fails, and those that come before it pass (R251, R253). -/
def FirstFailure (i : Instr) (m : State) : StatusCode → Prop
  | .ok | .errCmd => False
  | .errLen => needs16 i = true ∧ m.len.toNat % 16 ≠ 0
  | .errRange => ¬(needs16 i = true ∧ m.len.toNat % 16 ≠ 0) ∧ ¬buffersInRange m i
  | .errPad => i = .unpad ∧ buffersInRange m i ∧ unpad (inputBytes m) = none
  | .errRnd => (i = .ksnext ∧ 10 ≤ m.rnd.toNat) ∨ (i = .ksprev ∧ (m.rnd.toNat = 0 ∨ 10 < m.rnd.toNat))

section
variable {i : Instr} {m t : State}

theorem exec_errLen (h : FirstFailure i m .errLen) : exec i m = .next (fail .errLen m) := by
  obtain ⟨h16, hlen⟩ := h
  cases i with
  | ecb d => exact modeCommand_errLen _ hlen
  | cbce d => exact modeCommand_errLen _ hlen
  | cbcd d => exact modeCommand_errLen _ hlen
  | _ => cases h16

theorem exec_errRange (hi : wellFormed i = true) (h : FirstFailure i m .errRange) : exec i m = .next (fail .errRange m) := by
  obtain ⟨hlen, hr⟩ := h
  simp only [not_and, not_not] at hlen
  cases i with
  | ecb d => exact modeCommand_errRange _ hlen hr
  | cbce d => exact modeCommand_errRange _ hlen hr
  | cbcd d => exact modeCommand_errRange _ hlen hr
  | ctr d => exact (exec_ctr d m).trans (modeCommand_errRange _ nofun hr)
  | pad bs => exact exec_pad_errRange (of_decide_eq_true hi) hr
  | unpad => exact exec_unpad_errRange hr
  | _ => exact absurd trivial hr

theorem exec_errPad (h : FirstFailure i m .errPad) : exec i m = .next (fail .errPad m) := by
  obtain ⟨rfl, hr, hnone⟩ := h
  exact exec_unpad_errPad hr fun n hn => nomatch hnone.symm.trans (unpad_of_validPadding hn)

theorem exec_errRnd (h : FirstFailure i m .errRnd) : exec i m = .next (fail .errRnd m) := by
  rcases h with ⟨rfl, hrnd⟩ | ⟨rfl, hrnd⟩
  · exact exec_ksnext_of_none (nextRoundKey_of_ge _ hrnd)
  · exact exec_ksprev_of_none (previousRoundKey_of_not_mem _ hrnd)

/-- The cause of a code decides that the command fails with it. -/
theorem exec_of_firstFailure {c : StatusCode} (hi : wellFormed i = true) (h : FirstFailure i m c) :
    exec i m = .next (fail c m) := by
  cases c with
  | ok | errCmd => exact h.elim
  | errLen => exact exec_errLen h
  | errRange => exact exec_errRange hi h
  | errPad => exact exec_errPad h
  | errRnd => exact exec_errRnd h

theorem modeCommand_ends_ok {needs16 : Bool} {fn : List Byte → Option (List Byte)} (hfn : HasResult needs16 fn m)
    (hc : ModeChecks needs16 m) : ∃ t, modeCommand needs16 fn m = .next t ∧ t.status = .ok := by
  obtain ⟨out, hout, -⟩ := hfn hc.1
  exact ⟨_, modeCommand_ok hc.1 hc.2 hout, rfl⟩

/-- A well-formed command that no cause holds of passes all its checks and completes (R251). -/
theorem exec_ok_of_no_firstFailure (hi : wellFormed i = true) (h : ∀ c, ¬FirstFailure i m c) :
    ∃ t, exec i m = .next t ∧ t.status = .ok := by
  have hlen : needs16 i = true → m.len.toNat % 16 = 0 := fun h16 => not_not.1 fun hne => h .errLen ⟨h16, hne⟩
  have hr : buffersInRange m i := not_not.1 fun hne => h .errRange ⟨h .errLen, hne⟩
  cases i with
  | ecb d => exact modeCommand_ends_ok (ecb_result _ m) ⟨hlen, hr⟩
  | cbce d => exact modeCommand_ends_ok (cbcEncrypt_result _ _ m) ⟨hlen, hr⟩
  | cbcd d => exact modeCommand_ends_ok (cbcDecrypt_result _ _ m) ⟨hlen, hr⟩
  | ctr d => exact modeCommand_ends_ok (hasResult_ctrMode _ _ m) ⟨nofun, hr⟩
  | pad bs => exact ⟨_, exec_pad_ok (of_decide_eq_true hi) hr, rfl⟩
  | unpad =>
    have hsome : unpad (inputBytes m) ≠ none := fun hnone => h .errPad ⟨rfl, hr, hnone⟩
    obtain ⟨out, hout⟩ := Option.ne_none_iff_exists'.1 hsome
    obtain ⟨n, hn⟩ := exists_validPadding_of_unpad hout
    exact ⟨_, exec_unpad_ok hr hn, rfl⟩
  | ksnext =>
    have hrnd : m.rnd.toNat ≤ 9 := by
      by_contra hge
      exact h .errRnd (.inl ⟨rfl, by omega⟩)
    obtain ⟨c, -, hrk⟩ := nextRoundKey_of_le m.rk hrnd
    exact ⟨_, exec_ksnext_of_some hrk, rfl⟩
  | ksprev =>
    have hrnd : 1 ≤ m.rnd.toNat ∧ m.rnd.toNat ≤ 10 := by
      by_contra hout
      exact h .errRnd (.inr ⟨rfl, by omega⟩)
    obtain ⟨c, -, hrk⟩ := previousRoundKey_of_mem m.rk hrnd.1 hrnd.2
    exact ⟨_, exec_ksprev_of_some hrk, rfl⟩
  | _ => exact infallibleCommandsEndOk _ m (by simp [opcodeOf])

/-- A failed command reports the code whose cause holds; causes exclude each other because a command has one next state. -/
theorem status_eq_iff_firstFailure (hi : wellFormed i = true) (ht : exec i m = .next t) {c : StatusCode} (hc : c ≠ .ok) :
    t.status = c ↔ FirstFailure i m c := by
  constructor
  · rintro rfl
    by_cases h : ∃ c, FirstFailure i m c
    · obtain ⟨c, h⟩ := h
      cases (exec_of_firstFailure hi h).symm.trans ht
      exact h
    · obtain ⟨t', ht', hok⟩ := exec_ok_of_no_firstFailure hi (not_exists.1 h)
      cases ht'.symm.trans ht
      exact absurd hok hc
  · intro h
    cases (exec_of_firstFailure hi h).symm.trans ht
    rfl

end

/-- Settles O27: the statement's causes are those of `FirstFailure`, where `ERR_CMD` has none once the word is decoded. -/
theorem firstFailingCheckDecidesTheCode : Obligations.FirstFailingCheckDecidesTheCode := by
  refine ⟨fun w m e h => ⟨_, runCommand_of_decode_error m h, rfl⟩, fun i m t hi ht => ?_⟩
  have key : ∀ {c : StatusCode}, c ≠ .ok → (t.status = c ↔ FirstFailure i m c) := status_eq_iff_firstFailure hi ht
  exact ⟨(key (c := .errCmd) nofun).1, key nofun, key nofun, key nofun, key nofun⟩

end Sys2Proof.Machine
